-- ==== Sys2Proof/Word.lean ====
section
/-! DEFINITION. The widths the spec gives its values (R10, R11 of 00_scope.md): every quantity is unsigned. -/

namespace Sys2Proof

/-- An operand, a character code, a bitmap row, a command byte: 8 bits (R10). -/
abbrev Byte := BitVec 8

/-- "a 4-bit half of a byte; the unit of transfer in 4-bit interface mode" (R14). -/
abbrev Nibble := BitVec 4

/-- A pin identifier as the host command stream carries it: "an unsigned 8-bit number" (R10, D4), because
INIT's operands are bytes (R72). The block itself takes pin identifiers of any type: the types and operations
of Machine/ that mention pins have the type `P` of their identifiers as an argument, of which this is the
default. It is never added, shifted or masked (log 4). -/
abbrev PinId := BitVec 8

end Sys2Proof
end

