-- ==== Sys2Proof/Syntax.lean ====
section
/-! DEFINITION. The closed operation set of R70 (30_encoding.md): one constructor for each of the 20 rows of
spec/opcode_table.json, in its three layers. -/

namespace Sys2Proof

/-- The eight rows of a glyph: "exactly eight 8-bit rows `b[0]` ... `b[7]`" (R154). -/
structure Bitmap where
  b0 : Byte
  b1 : Byte
  b2 : Byte
  b3 : Byte
  b4 : Byte
  b5 : Byte
  b6 : Byte
  b7 : Byte
  deriving DecidableEq, Repr

/-- The three layers of the operation set (R70, R97). -/
inductive Layer where
  /-- The only things the host can ask for. -/
  | host
  /-- Used only by the host operations (R71). -/
  | primitive
  /-- The only messages the block ever conveys to the display. -/
  | bus
  deriving DecidableEq, Repr

/-- The operations of R70. -/
inductive Instr where
  /-- INIT (R120), format HI. -/
  | init (rs en d4 d5 d6 d7 : PinId)
  /-- CLEAR (R140), format H0. -/
  | clear
  /-- SET_CURSOR (R144), format HRC. -/
  | setCursor (row column : Byte)
  /-- PRINT (R150), format HT. -/
  | print (text : List Byte)
  /-- PRINT_GLYPH (R152), format HB. -/
  | printGlyph (code : Byte)
  /-- CREATE_GLYPH (R154), format HG. -/
  | createGlyph (index : Byte) (bitmap : Bitmap)
  /-- PULSE_ENABLE (R100). -/
  | pulseEnable
  /-- TRANSMIT_NIBBLE (R102). -/
  | transmitNibble (v : Nibble)
  /-- SEND_BYTE (R104). -/
  | sendByte (value : Byte) (isData : Bool)
  /-- SEND_COMMAND (R106). -/
  | sendCommand (value : Byte)
  /-- SEND_DATA (R108). -/
  | sendData (value : Byte)
  /-- RESET_NIBBLE, `{0, 0x3}` (R81, R125). -/
  | resetNibble
  /-- MODE4_NIBBLE, `{0, 0x2}` (R81, R126). -/
  | mode4Nibble
  /-- FUNCTION_SET, `001 l n f x x` (R83, R127). -/
  | functionSet (l n f : Bool) (x : BitVec 2)
  /-- DISPLAY_CONTROL, `0000 1 d c b` (R83, R128). -/
  | displayControl (d c b : Bool)
  /-- CLEAR_DISPLAY, `0000 0001` (R83, R140). -/
  | clearDisplay
  /-- ENTRY_MODE_SET, `0000 01 i s` (R83, R130). -/
  | entryModeSet (i s : Bool)
  /-- SET_DDRAM_ADDR, `1 aaaaaaa` (R83, R146). -/
  | setDdramAddr (a : BitVec 7)
  /-- SET_CGRAM_ADDR, `01 aaaaaa` (R83, R156). -/
  | setCgramAddr (a : BitVec 6)
  /-- WRITE_DATA, `{1, dddd dddd}` (R83, R108). -/
  | writeData (d : Byte)
  deriving DecidableEq, Repr

/-- The layer of each operation (R70, the table's "layer"). -/
def Instr.layer : Instr → Layer
  | .init _ _ _ _ _ _ => .host
  | .clear => .host
  | .setCursor _ _ => .host
  | .print _ => .host
  | .printGlyph _ => .host
  | .createGlyph _ _ => .host
  | .pulseEnable => .primitive
  | .transmitNibble _ => .primitive
  | .sendByte _ _ => .primitive
  | .sendCommand _ => .primitive
  | .sendData _ => .primitive
  | .resetNibble => .bus
  | .mode4Nibble => .bus
  | .functionSet _ _ _ _ => .bus
  | .displayControl _ _ _ => .bus
  | .clearDisplay => .bus
  | .entryModeSet _ _ => .bus
  | .setDdramAddr _ => .bus
  | .setCgramAddr _ => .bus
  | .writeData _ => .bus

end Sys2Proof
end

