-- ==== Sys2Proof/WellFormed.lean ====
section
/-! DEFINITION. Which instructions have an encoding at all. The types carry every width the spec gives; what is
left to check is the length of a PRINT text, which the byte stream carries in one byte (R72, R74). -/

namespace Sys2Proof

/-- "explicit length 0 to 255 in the byte stream (any length in the abstract operation)" (R74). -/
def textFits (text : List Byte) : Bool := text.length ≤ 255

/-- An instruction that the encoding of its layer can spell. INIT with equal pins is well formed: it has
an encoding, and it is refused when it is issued (R177). -/
def Instr.wellFormed : Instr → Bool
  | .init _ _ _ _ _ _ => true
  | .clear => true
  | .setCursor _ _ => true
  | .print text => textFits text
  | .printGlyph _ => true
  | .createGlyph _ _ => true
  | .pulseEnable => true
  | .transmitNibble _ => true
  | .sendByte _ _ => true
  | .sendCommand _ => true
  | .sendData _ => true
  | .resetNibble => true
  | .mode4Nibble => true
  | .functionSet _ _ _ _ => true
  | .displayControl _ _ _ => true
  | .clearDisplay => true
  | .entryModeSet _ _ => true
  | .setDdramAddr _ => true
  | .setCgramAddr _ => true
  | .writeData _ => true

end Sys2Proof
end

