-- ==== Sys2Proof/Decode.lean ====
section
/-! DEFINITION. Decoding and encoding at the three levels of 30_encoding.md: the host command stream (R72, R73),
the 9-bit bus words (R80, R83) and the 5-bit single-nibble words (R81). The primitives have no encoding (R71). -/

namespace Sys2Proof

/-! ## The host command stream (R72, R73, R90) -/

/-- What the decoder makes of the bytes the host has issued. -/
inductive Decoded where
  /-- Nothing has been issued. -/
  | empty
  /-- An operation, and the bytes after it. -/
  | instr (i : Instr) (rest : List Byte)
  /-- "Opcode bytes 0x00 and 0x07 to 0xFF select no operation" (R90). -/
  | reservedOpcode (opcode : Byte)
  /-- "a stream that ends inside an operation spells none" (R90). -/
  | truncated
  deriving DecidableEq, Repr

/-- Format HI: `rs`, `en`, `d4`, `d5`, `d6`, `d7` (R72). -/
def decodeHI : List Byte → Decoded
  | rs :: en :: d4 :: d5 :: d6 :: d7 :: rest => .instr (.init rs en d4 d5 d6 d7) rest
  | _ => .truncated

/-- Format HRC: `row`, `column` (R72). -/
def decodeHRC : List Byte → Decoded
  | row :: column :: rest => .instr (.setCursor row column) rest
  | _ => .truncated

/-- Format HT: `len`, then `len` character codes (R72, R74). -/
def decodeHT : List Byte → Decoded
  | len :: rest =>
    if len.toNat ≤ rest.length then .instr (.print (rest.take len.toNat)) (rest.drop len.toNat)
    else .truncated
  | [] => .truncated

/-- Format HB: `code` (R72). -/
def decodeHB : List Byte → Decoded
  | code :: rest => .instr (.printGlyph code) rest
  | [] => .truncated

/-- Format HG: `index`, then `b[0]` to `b[7]` (R72). -/
def decodeHG : List Byte → Decoded
  | index :: b0 :: b1 :: b2 :: b3 :: b4 :: b5 :: b6 :: b7 :: rest =>
    .instr (.createGlyph index ⟨b0, b1, b2, b3, b4, b5, b6, b7⟩) rest
  | _ => .truncated

/-- The decoder of R73: byte 0 selects the operation and, with PRINT's `len`, its length. Total on any
bytes; a reserved opcode and a truncated operation are rejected by name (R90). -/
def decode : List Byte → Decoded
  | [] => .empty
  | opcode :: rest =>
    match opcode.toNat with
    | 0x01 => decodeHI rest
    | 0x02 => .instr .clear rest
    | 0x03 => decodeHRC rest
    | 0x04 => decodeHT rest
    | 0x05 => decodeHB rest
    | 0x06 => decodeHG rest
    | _ => .reservedOpcode opcode

/-- The eight rows in array order, element 0 first (R47). -/
def Bitmap.rows (b : Bitmap) : List Byte := [b.b0, b.b1, b.b2, b.b3, b.b4, b.b5, b.b6, b.b7]

/-- The bytes of a host operation, by the table of R72. The primitives and the bus words have no host
encoding (R71, R97): the empty list. -/
def encode : Instr → List Byte
  | .init rs en d4 d5 d6 d7 => [0x01, rs, en, d4, d5, d6, d7]
  | .clear => [0x02]
  | .setCursor row column => [0x03, row, column]
  | .print text => 0x04 :: BitVec.ofNat 8 text.length :: text
  | .printGlyph code => [0x05, code]
  | .createGlyph index bitmap => 0x06 :: index :: bitmap.rows
  | .pulseEnable => []
  | .transmitNibble _ => []
  | .sendByte _ _ => []
  | .sendCommand _ => []
  | .sendData _ => []
  | .resetNibble => []
  | .mode4Nibble => []
  | .functionSet _ _ _ _ => []
  | .displayControl _ _ _ => []
  | .clearDisplay => []
  | .entryModeSet _ _ => []
  | .setDdramAddr _ => []
  | .setCgramAddr _ => []
  | .writeData _ => []

/-- The "total length" column of R72's table. -/
def hostLength : Instr → Nat
  | .init _ _ _ _ _ _ => 7
  | .clear => 1
  | .setCursor _ _ => 3
  | .print text => 2 + text.length
  | .printGlyph _ => 2
  | .createGlyph _ _ => 10
  | .pulseEnable => 0
  | .transmitNibble _ => 0
  | .sendByte _ _ => 0
  | .sendCommand _ => 0
  | .sendData _ => 0
  | .resetNibble => 0
  | .mode4Nibble => 0
  | .functionSet _ _ _ _ => 0
  | .displayControl _ _ _ => 0
  | .clearDisplay => 0
  | .entryModeSet _ _ => 0
  | .setDdramAddr _ => 0
  | .setCgramAddr _ => 0
  | .writeData _ => 0

/-! ## Bus words (R80, R83) -/

/-- A bus word: "9 bits, `{rs, db[7:0]}`" (R80). -/
structure BusWord where
  rs : Bool
  db : Byte
  deriving DecidableEq, Repr

/-- A Bool as one bit. -/
def bit (b : Bool) : BitVec 1 := BitVec.ofBool b

/-- FUNCTION_SET: `001 l n f x x` (R83). -/
def wordFunctionSet (l n f : Bool) (x : BitVec 2) : BusWord :=
  ⟨false, 0b001#3 ++ bit l ++ bit n ++ bit f ++ x⟩

/-- DISPLAY_CONTROL: `0000 1 d c b` (R83). -/
def wordDisplayControl (d c b : Bool) : BusWord := ⟨false, 0b00001#5 ++ bit d ++ bit c ++ bit b⟩

/-- CLEAR_DISPLAY: `0000 0001` (R83). -/
def wordClearDisplay : BusWord := ⟨false, 0b00000001#8⟩

/-- ENTRY_MODE_SET: `0000 01 i s` (R83). -/
def wordEntryModeSet (i s : Bool) : BusWord := ⟨false, 0b000001#6 ++ bit i ++ bit s⟩

/-- SET_DDRAM_ADDR: `1 aaaaaaa` (R83). -/
def wordSetDdramAddr (a : BitVec 7) : BusWord := ⟨false, 0b1#1 ++ a⟩

/-- SET_CGRAM_ADDR: `01 aaaaaa` (R83). -/
def wordSetCgramAddr (a : BitVec 6) : BusWord := ⟨false, 0b01#2 ++ a⟩

/-- WRITE_DATA: `rs = 1`, `dddd dddd` (R83). -/
def wordWriteData (d : Byte) : BusWord := ⟨true, d⟩

/-- The 9-bit bus word of a bus-layer operation; none for the others, the two single-nibble words
included (R81). -/
def encodeBus : Instr → Option BusWord
  | .init _ _ _ _ _ _ => none
  | .clear => none
  | .setCursor _ _ => none
  | .print _ => none
  | .printGlyph _ => none
  | .createGlyph _ _ => none
  | .pulseEnable => none
  | .transmitNibble _ => none
  | .sendByte _ _ => none
  | .sendCommand _ => none
  | .sendData _ => none
  | .resetNibble => none
  | .mode4Nibble => none
  | .functionSet l n f x => some (wordFunctionSet l n f x)
  | .displayControl d c b => some (wordDisplayControl d c b)
  | .clearDisplay => some wordClearDisplay
  | .entryModeSet i s => some (wordEntryModeSet i s)
  | .setDdramAddr a => some (wordSetDdramAddr a)
  | .setCgramAddr a => some (wordSetCgramAddr a)
  | .writeData d => some (wordWriteData d)

/-- The bus word a 9-bit value spells, by the first one among `db7` .. `db0` (R83). A command the
table does not hold (shift, return home, 0x00) spells none (R91). -/
def decodeBus (w : BusWord) : Option Instr :=
  if w.rs then some (.writeData w.db)
  else if w.db.getLsbD 7 then some (.setDdramAddr (w.db.extractLsb' 0 7))
  else if w.db.getLsbD 6 then some (.setCgramAddr (w.db.extractLsb' 0 6))
  else if w.db.getLsbD 5 then
    some (.functionSet (w.db.getLsbD 4) (w.db.getLsbD 3) (w.db.getLsbD 2) (w.db.extractLsb' 0 2))
  else if w.db.getLsbD 4 then none
  else if w.db.getLsbD 3 then
    some (.displayControl (w.db.getLsbD 2) (w.db.getLsbD 1) (w.db.getLsbD 0))
  else if w.db.getLsbD 2 then some (.entryModeSet (w.db.getLsbD 1) (w.db.getLsbD 0))
  else if w.db.getLsbD 1 then none
  else if w.db.getLsbD 0 then some .clearDisplay
  else none

/-! ## Single-nibble words (R81) -/

/-- A single-nibble word: "5 bits, `{rs, n[3:0]}`" (R81). -/
structure NibbleWord where
  rs : Bool
  n : Nibble
  deriving DecidableEq, Repr

/-- `RESET_NIBBLE = {0, 0x3}` (R81). -/
def wordResetNibble : NibbleWord := ⟨false, 0x3⟩

/-- `MODE4_NIBBLE = {0, 0x2}` (R81). -/
def wordMode4Nibble : NibbleWord := ⟨false, 0x2⟩

/-- "The block emits only two of them" (R81). -/
def decodeNibble (w : NibbleWord) : Option Instr :=
  if w = wordResetNibble then some .resetNibble
  else if w = wordMode4Nibble then some .mode4Nibble
  else none

/-! ## The opcode table's numbering -/

/-- The `k` bytes of a number, byte 0 (bits 7..0) first. -/
def wordBytes : Nat → Nat → List Byte
  | 0, _ => []
  | k + 1, w => BitVec.ofNat 8 w :: wordBytes k (w / 256)

/-- The longest operation: PRINT of 255 characters (R72). -/
def longestOperation : Nat := 257

/-- The bytes of a word of the opcode table, as the host would issue them: byte 0 first, every bit
above `nbits` zero, up to the longest operation. -/
def tableBytes (nbits w : Nat) : List Byte :=
  wordBytes (max longestOperation ((nbits + 7) / 8)) (w % 2 ^ nbits)

/-- The operation the host-stream decoder reads from a word of the opcode table. A word of the table's
primitive or bus rows is read like any other bytes the host might issue: those rows have no host
encoding (R71, R97; log 10). -/
def decodeTableWord (nbits w : Nat) : Option Instr :=
  match decode (tableBytes nbits w) with
  | .instr i _ => some i
  | .empty => none
  | .reservedOpcode _ => none
  | .truncated => none

/-- The bytes of that operation alone; the whole word where the decoder refuses it. -/
def operationBytes (nbits w : Nat) : List Byte :=
  match decode (tableBytes nbits w) with
  | .instr _ rest => (tableBytes nbits w).take ((tableBytes nbits w).length - rest.length)
  | .empty => tableBytes nbits w
  | .reservedOpcode _ => tableBytes nbits w
  | .truncated => tableBytes nbits w

end Sys2Proof
end

