-- ==== Sys2Proof/Config.lean ====
section
/-! DEFINITION. What is configuration (R35): the geometry (R8), the eight delay parameters (R9), the six
command bytes (R84), with the spec's defaults and the bounds a configuration must meet. -/

namespace Sys2Proof

/-- The configuration fields of R8, R9 (00_scope.md) and R84 (30_encoding.md), each under the
spec's name. They are carried in the state (log 1), so that a statement holds for all of them. -/
structure Config where
  /-- `ROW_COUNT` (R8). -/
  rowCount : Nat
  /-- `COLUMN_COUNT` (R8). -/
  columnCount : Nat
  /-- `T_POWERUP_MS` (R9): INIT step 2. -/
  tPowerupMs : Nat
  /-- `T_RESET1_MS` (R9): after the first 0x3 nibble. -/
  tReset1Ms : Nat
  /-- `T_RESET2_MS` (R9): after the second 0x3 nibble. -/
  tReset2Ms : Nat
  /-- `T_RESET3_MS` (R9): after the third 0x3 nibble. -/
  tReset3Ms : Nat
  /-- `T_CLEAR_MS` (R9): after the clear-display command. -/
  tClearMs : Nat
  /-- `T_E_PRE` (R9): first wait of the enable pulse. -/
  tEPre : Nat
  /-- `T_E_WIDTH` (R9): second wait of the enable pulse. -/
  tEWidth : Nat
  /-- `T_E_POST` (R9): third, longer wait of the enable pulse. -/
  tEPost : Nat
  /-- `BYTE_FUNCTION_SET` (R84): INIT step 5. -/
  byteFunctionSet : Byte
  /-- `BYTE_DISPLAY_CONTROL` (R84): INIT step 6. -/
  byteDisplayControl : Byte
  /-- `BYTE_CLEAR` (R84): CLEAR and INIT step 7. -/
  byteClear : Byte
  /-- `BYTE_DDRAM_BASE` (R84): the "set DDRAM address" command with offset 0. -/
  byteDdramBase : Byte
  /-- `BYTE_ENTRY_MODE` (R84): INIT step 8. -/
  byteEntryMode : Byte
  /-- `BYTE_CGRAM_BASE` (R84): the "set CGRAM address" command with offset 0. -/
  byteCgramBase : Byte
  deriving DecidableEq, Repr

/-- The defaults of R8, R9 and R84. PRESUMED by the spec itself (general knowledge, G1 and G2, log 15):
the three enable-pulse waits and their unit, and the six command bytes. -/
def Config.reference : Config where
  rowCount := 2
  columnCount := 16
  tPowerupMs := 50
  tReset1Ms := 5
  tReset2Ms := 5
  tReset3Ms := 1
  tClearMs := 2
  tEPre := 1
  tEWidth := 1
  tEPost := 100
  byteFunctionSet := 0x28
  byteDisplayControl := 0x0C
  byteClear := 0x01
  byteDdramBase := 0x80
  byteEntryMode := 0x06
  byteCgramBase := 0x40

/-- The geometries of this hardware: `1 <= ROW_COUNT <= 2` and `1 <= COLUMN_COUNT <= 64` (R8, D18). -/
abbrev Config.legalGeometry (c : Config) : Prop :=
  1 ≤ c.rowCount ∧ c.rowCount ≤ 2 ∧ 1 ≤ c.columnCount ∧ c.columnCount ≤ 64

/-- "every parameter is at least its bound, and `T_E_POST > T_E_PRE` and `T_E_POST > T_E_WIDTH`" (R9). -/
abbrev Config.legalDelays (c : Config) : Prop :=
  50 ≤ c.tPowerupMs ∧ 5 ≤ c.tReset1Ms ∧ 5 ≤ c.tReset2Ms ∧ 1 ≤ c.tReset3Ms ∧ 2 ≤ c.tClearMs ∧
    1 ≤ c.tEPre ∧ 1 ≤ c.tEWidth ∧ 1 ≤ c.tEPost ∧ c.tEPre < c.tEPost ∧ c.tEWidth < c.tEPost

/-- A configuration of this hardware (R8, R9). One that does not meet this "is not a configuration of
this hardware" (R110) and is refused by the step (U10). -/
abbrev Config.legal (c : Config) : Prop := c.legalGeometry ∧ c.legalDelays

end Sys2Proof
end

