-- ==== Sys2Proof/Machine/State.lean ====
section
/-! DEFINITION. Everything the spec gives the machine, as plain data (10_state.md), and the state after reset (R41). -/

namespace Sys2Proof.Machine

/-- The nine positions of the initialization state machine, in the spec's order (R24). -/
inductive Seq where
  | unpowered
  | unknownMode
  | eightBitTransitional
  | fourBitConfigured
  | functionSet
  | displayOn
  | cleared
  | entryModeSet
  | ready
  deriving DecidableEq, Repr

/-- The Display Handle: six pin identifiers, the block's only registers (R20, R21). -/
structure Handle (P : Type := PinId) where
  rs : P
  en : P
  d4 : P
  d5 : P
  d6 : P
  d7 : P
  deriving DecidableEq, Repr

/-- The event alphabet (R12): one event is one call on a provider. -/
inductive Event (P : Type := PinId) where
  /-- `configure_output(p)`. -/
  | cfg (p : P)
  /-- `set_high(p)`. -/
  | hi (p : P)
  /-- `set_low(p)`. -/
  | lo (p : P)
  /-- `delay_ms(n)`. -/
  | dms (n : Nat)
  /-- `delay_us(n)`. -/
  | dus (n : Nat)
  deriving DecidableEq, Repr

/-- `dir(p)` in {`unknown`, `output`} (R28). -/
inductive Dir where
  | unknown
  | output
  deriving DecidableEq, Repr

/-- `level(p)` in {`unknown`, `low`, `high`} (R28). -/
inductive Level where
  | unknown
  | low
  | high
  deriving DecidableEq, Repr

/-- What the Digital I/O provider holds for one pin (R28). -/
structure Pin where
  dir : Dir
  level : Level
  deriving DecidableEq, Repr

/-- A pin no event has touched (R41). -/
def Pin.untouched : Pin := ⟨.unknown, .unknown⟩

/-- The pin shadow (R28): pins by identifier, strictly rising, none listed that is untouched. The order only
lists them; nothing the block does depends on it (log 4). -/
abbrev Pins (P : Type := PinId) := List (P × Pin)

/-- The grounds of a refusal in the sense of R175, in the order in which R173 judges them. A refusal of
this kind is a NEXT state with the mark `refused` set (log 5), not an outcome of its own. -/
inductive Ground where
  /-- Reserved opcode or truncated operation (R179). -/
  | malformed
  /-- Issue while busy (R178). -/
  | busy
  /-- Display API while `seq` is not `Ready` (R176). -/
  | notReady
  /-- INIT whose six pin identifiers are not pairwise distinct (R177). -/
  | pinsNotDistinct
  /-- INIT that names a pin held by another instance's handle (R191). -/
  | pinHeld
  /-- A primitive or bus word with no handle to address pins through (R42; DESIGN CHOICE, log 11). -/
  | noHandle
  deriving DecidableEq, Repr

/-- "The block raises no synchronous exception" (R170) and takes no interrupt (R172): there is no fault.
A failing provider is not one: it leaves the state R180 describes. -/
inductive Fault where
  deriving DecidableEq, Repr

/-- Why a step has no meaning at all. -/
inductive Refusal where
  /-- An instruction without a meaning yet; raised by `exec`'s arms only. Safe. -/
  | notModelled (mnemonic : String)
  /-- The configuration is below its bounds: "not a configuration of this hardware" (R110, U10).
  Raised by `step`. Safe. -/
  | illegalConfiguration
  deriving DecidableEq, Repr

/-- The state of one instance of the block (10_state.md), over pin identifiers of the type `P` (R10). `State`
alone is the state behind the host command stream, whose identifiers are bytes. -/
structure State (P : Type := PinId) where
  /-- Configuration (R8, R9, R35, R84): no operation writes it (R41). -/
  config : Config
  /-- The events on which the providers fail: the parameter `provider_fails` (R180; log 2). -/
  failing : List (Event P)
  /-- Pins held by the handles of other instances (R191; log 3). -/
  foreignPins : List P
  /-- The host command stream: bytes issued and not yet consumed (R63, R72). -/
  stream : List Byte
  /-- The Display Handle; no value before the first INIT (R23, R42). -/
  handle : Option (Handle P)
  /-- The position of the initialization state machine (R24). -/
  seq : Seq
  /-- True from the issue of an operation until its last event (R27). -/
  busy : Bool
  /-- The pin shadow (R28). -/
  pins : Pins P
  /-- All events emitted since reset, in order (R30). -/
  trace : List (Event P)
  /-- Sticky mark: the model gave some request no meaning (R32, R175). -/
  refused : Bool
  /-- The ground reported for the latest refused request (R173; the field is the model's, log 6). -/
  ground : Option Ground
  /-- Sticky mark: a provider call failed (R32, R180). -/
  providerFault : Bool
  deriving DecidableEq, Repr

/-- The state after reset: R41's table. `stream` and `foreignPins` empty are DESIGN CHOICE (logs 9 and 3),
`failing` empty is R180's default, the configuration is the spec's defaults (R8, R9, R84). -/
def State.reset : State where
  config := Config.reference
  failing := []
  foreignPins := []
  stream := []
  handle := none
  seq := .unpowered
  busy := false
  pins := []
  trace := []
  refused := false
  ground := none
  providerFault := false

end Sys2Proof.Machine
end

