-- ==== Sys2Proof/Machine/Operands.lean ====
section
/-! DEFINITION. Operand assembly and arithmetic: R85 and R86 (30_encoding.md), R145, R146, R155, R156 (42_display_api.md). -/

namespace Sys2Proof.Machine

/-- `value >> 4` = `value[7:4]` (R85 (a)). -/
def highNibble (value : Byte) : Nibble := value.extractLsb' 4 4

/-- `value & 0xF` = `value[3:0]` (R85 (a)). -/
def lowNibble (value : Byte) : Nibble := value.extractLsb' 0 4

/-- Saturation "to the maximum index (not wrapping, not erroring)": `min(operand, count - 1)` (R145). -/
def saturate (operand : Byte) (count : Nat) : Nat := min operand.toNat (count - 1)

/-- The DDRAM offset of a row: "row 0 starts at offset 0x00, row 1 at offset 0x40" (R52, R146). -/
def rowOffset (r : Nat) : Nat := if r = 0 then 0x00 else 0x40

/-- The DDRAM address of SET_CURSOR, on the saturated operands (R85 (b), R146). -/
def ddramAddress (c : Config) (row column : Byte) : Nat :=
  saturate column c.columnCount + rowOffset (saturate row c.rowCount)

/-- The "set DDRAM address" command byte: `0x80 | addr` (R84, R85 (b)). -/
def ddramByte (c : Config) (address : Nat) : Byte := c.byteDdramBase ||| BitVec.ofNat 8 address

/-- The CGRAM address of a glyph slot: `i = index & 0x7`, `addr = i << 3` (R85 (c), R155). -/
def cgramAddress (index : Byte) : Byte := (index &&& 0x07) <<< 3

/-- The "set CGRAM address" command byte: `0x40 | ((index & 7) << 3)` (R84, R156). -/
def cgramByte (c : Config) (index : Byte) : Byte := c.byteCgramBase ||| cgramAddress index

/-- The six pins of a handle, in field order (R21). -/
def Handle.pins {P : Type} (h : Handle P) : List P := [h.rs, h.en, h.d4, h.d5, h.d6, h.d7]

/-- "all six pins are distinct" (R22). -/
abbrev Handle.distinct {P : Type} (h : Handle P) : Prop := h.pins.Nodup

end Sys2Proof.Machine
end

