-- ==== Sys2Proof/Machine/Flags.lean ====
section
/-! DEFINITION. The block "has no status flags, condition codes or predicates" (R33): no flag computation exists.
What stands here is what the spec has instead: the sticky marks of the model (R32) and the grounds on which a
request is refused (R173 to R179, R191). -/

namespace Sys2Proof.Machine

variable {P : Type}

/-- To refuse a request (R175): no event, no hardware state changed, the sticky mark set. The ground is
what "the model reports" (R173). DESIGN CHOICE, log 5: the run goes on, the mark stays. -/
def refuse (g : Ground) (s : State P) : State P := { s with refused := true, ground := some g }

/-- The first ground that applies to a Display API operation (R173): busy, then the Ready gate (R176). -/
def apiGround (s : State P) : Option Ground :=
  if s.busy then some .busy
  else if s.seq = .ready then none
  else some .notReady

/-- The first ground that applies to an INIT (R173): busy, then pins not distinct (R177), then a pin that
another instance's handle holds (R191; its place in the order is DESIGN CHOICE, log 3). INIT needs no
Ready gate: not ready is the mode "in which only INIT is accepted" (R185). -/
def initGround [DecidableEq P] (h : Handle P) (s : State P) : Option Ground :=
  if s.busy then some .busy
  else if h.distinct then
    if h.pins.any (fun p => s.foreignPins.contains p) then some .pinHeld else none
  else some .pinsNotDistinct

/-- The parameter `provider_fails : Event -> Bool` (R180), as the finite list of events on which it is
true (log 2). -/
def State.providerFails [DecidableEq P] (s : State P) (e : Event P) : Bool := s.failing.contains e

end Sys2Proof.Machine
end

