-- ==== Sys2Proof/Machine/Ops.lean ====
section
/-! DEFINITION. The named operations: the pin shadow (R28), emitting events (R12, R30, R180), the primitives of the
Protocol Engine as event lists (40_protocol_engine.md), the phases of INIT (41_initialization.md), and what an
operation does around its events (R27). There is no exception to take and none to return from (R170, R174);
the shared operations in that place are `refuse` (Flags.lean) and the provider fault inside `emit`. -/

namespace Sys2Proof.Machine

variable {P : Type}

/-! ## The pin shadow (R28) -/

/-- One pin of the shadow; an unlisted pin is untouched. -/
def Pins.get [DecidableEq P] : Pins P → P → Pin
  | [], _ => Pin.untouched
  | (q, w) :: rest, p => if p = q then w else Pins.get rest p

/-- List one pin in front, unless it is untouched. -/
def Pins.list (p : P) (v : Pin) (rest : Pins P) : Pins P :=
  if v = Pin.untouched then rest else (p, v) :: rest

/-- Write one pin of the shadow, keeping the canonical form. What is read back does not depend on the order of
the identifiers (`Pins.get_set`), so any will do where only their equality is known (R10). -/
def Pins.set [DecidableEq P] [LT P] [DecidableLT P] : Pins P → P → Pin → Pins P
  | [], p, v => Pins.list p v []
  | (q, w) :: rest, p, v =>
    if p = q then Pins.list p v rest
    else if p < q then Pins.list p v ((q, w) :: rest)
    else (q, w) :: Pins.set rest p v

/-- The canonical form: pin identifiers strictly rising, no untouched pin listed. -/
abbrev Pins.wf [LT P] (ps : Pins P) : Prop :=
  ps.Pairwise (fun a b => a.1 < b.1) ∧ ∀ a ∈ ps, a.2 ≠ Pin.untouched

/-- What an event does to the shadow (R28): `CFG` sets the direction and leaves the level, `HI` and `LO`
set the level, the delays change nothing. -/
def Pins.apply [DecidableEq P] [LT P] [DecidableLT P] (ps : Pins P) : Event P → Pins P
  | .cfg p => ps.set p ⟨.output, (ps.get p).level⟩
  | .hi p => ps.set p ⟨(ps.get p).dir, .high⟩
  | .lo p => ps.set p ⟨(ps.get p).dir, .low⟩
  | .dms _ => ps
  | .dus _ => ps

/-- The shadow after a list of events. -/
def Pins.applyAll [DecidableEq P] [LT P] [DecidableLT P] (ps : Pins P) (es : List (Event P)) : Pins P := es.foldl Pins.apply ps

/-! ## Emitting events (R12, R30, R180) -/

/-- `emit e`: append to the trace and apply to the shadow (R12). If the provider fails on `e` (R180) the
event is not emitted, `provider_fault` is set and `busy` stays true for ever; nothing is emitted after it. -/
def emit [DecidableEq P] [LT P] [DecidableLT P] (s : State P) (e : Event P) : State P :=
  if s.providerFault then s
  else if s.providerFails e then { s with providerFault := true, busy := true }
  else { s with trace := s.trace ++ [e], pins := s.pins.apply e }

/-- Emit every event of a list, in order (R12). -/
def emitAll [DecidableEq P] [LT P] [DecidableLT P] (s : State P) (es : List (Event P)) : State P := es.foldl emit s

/-- The state in which all of `es` have been emitted without a failure. -/
def State.emitted [DecidableEq P] [LT P] [DecidableLT P] (s : State P) (es : List (Event P)) : State P :=
  { s with trace := s.trace ++ es, pins := s.pins.applyAll es }

/-- `DRIVE(p, b)`: `if b = 1 then emit HI(p) else emit LO(p)` (R12). -/
def drive (p : P) (b : Bool) : Event P := if b then .hi p else .lo p

/-! ## The Protocol Engine (R100 to R108) -/

/-- PULSE_ENABLE (R100). -/
def pulseEnable (c : Config) (h : Handle P) : List (Event P) :=
  [.lo h.en, .dus c.tEPre, .hi h.en, .dus c.tEWidth, .lo h.en, .dus c.tEPost]

/-- TRANSMIT_NIBBLE(v): bit 0 on D4 to bit 3 on D7, in that order, then the pulse (R45, R102). -/
def transmitNibble (c : Config) (h : Handle P) (v : Nibble) : List (Event P) :=
  [drive h.d4 (v.getLsbD 0), drive h.d5 (v.getLsbD 1), drive h.d6 (v.getLsbD 2),
    drive h.d7 (v.getLsbD 3)] ++ pulseEnable c h

/-- SEND_BYTE(value, is_data): RS, then the high nibble, then the low nibble (R46, R104). -/
def sendByte (c : Config) (h : Handle P) (value : Byte) (isData : Bool) : List (Event P) :=
  drive h.rs isData ::
    (transmitNibble c h (highNibble value) ++ transmitNibble c h (lowNibble value))

/-- SEND_COMMAND(value) = SEND_BYTE(value, false) (R106). -/
def sendCommand (c : Config) (h : Handle P) (value : Byte) : List (Event P) := sendByte c h value false

/-- SEND_DATA(value) = SEND_BYTE(value, true) (R108). -/
def sendData (c : Config) (h : Handle P) (value : Byte) : List (Event P) := sendByte c h value true

/-- A bus word is conveyed by one SEND_BYTE (R80). -/
def sendWord (c : Config) (h : Handle P) (w : BusWord) : List (Event P) := sendByte c h w.db w.rs

/-! ## The Display API as event lists (R140 to R158) -/

/-- CLEAR (R140), which is also INIT step 7 (R129). -/
def clearEvents (c : Config) (h : Handle P) : List (Event P) :=
  sendCommand c h c.byteClear ++ [.dms c.tClearMs] ++ sendCommand c h (ddramByte c 0)

/-- SET_CURSOR (R144). -/
def setCursorEvents (row column : Byte) (c : Config) (h : Handle P) : List (Event P) :=
  sendCommand c h (ddramByte c (ddramAddress c row column))

/-- PRINT: "for each character in sequence, send data(character-code)" (R150). -/
def printEvents (text : List Byte) (c : Config) (h : Handle P) : List (Event P) :=
  text.flatMap (sendData c h)

/-- PRINT_GLYPH (R152). -/
def printGlyphEvents (code : Byte) (c : Config) (h : Handle P) : List (Event P) := sendData c h code

/-- CREATE_GLYPH (R154): the slot's address, the eight rows in order (R157), the closing address
command (R158). -/
def createGlyphEvents (index : Byte) (bitmap : Bitmap) (c : Config) (h : Handle P) : List (Event P) :=
  sendCommand c h (cgramByte c index) ++ bitmap.rows.flatMap (sendData c h) ++
    sendCommand c h (ddramByte c 0)

/-! ## INIT (R120, R121) -/

/-- Step 1: the six `CFG` in handle field order, then RS and E low (R123). -/
def initStep1 (h : Handle P) : List (Event P) :=
  [.cfg h.rs, .cfg h.en, .cfg h.d4, .cfg h.d5, .cfg h.d6, .cfg h.d7, .lo h.rs, .lo h.en]

/-- Step 3: three 0x3 nibbles, each with its wait (R125). -/
def initStep3 (c : Config) (h : Handle P) : List (Event P) :=
  transmitNibble c h 0x3 ++ [.dms c.tReset1Ms] ++ transmitNibble c h 0x3 ++ [.dms c.tReset2Ms] ++
    transmitNibble c h 0x3 ++ [.dms c.tReset3Ms]

/-- The eight transitions T1 to T8 of R121: the events of each and the state it leads to. -/
def initPhases (c : Config) (h : Handle P) : List (List (Event P) × Seq) :=
  [(initStep1 h ++ [.dms c.tPowerupMs], .unknownMode),
   (initStep3 c h, .eightBitTransitional),
   (transmitNibble c h 0x2, .fourBitConfigured),
   (sendCommand c h c.byteFunctionSet, .functionSet),
   (sendCommand c h c.byteDisplayControl, .displayOn),
   (clearEvents c h, .cleared),
   (sendCommand c h c.byteEntryMode, .entryModeSet),
   ([], .ready)]

/-- All events of INIT, in order (R120). -/
def initEvents (c : Config) (h : Handle P) : List (Event P) := (initPhases c h).flatMap Prod.fst

/-- One transition: its events, then `seq`; after a provider failure "`seq` keeps the value it had" (R180). -/
def transition [DecidableEq P] [LT P] [DecidableLT P] (s : State P) (phase : List (Event P) × Seq) : State P :=
  let s' := emitAll s phase.1
  if s'.providerFault then s' else { s' with seq := phase.2 }

/-! ## An operation (R27, R175, R180) -/

/-- An operation is in progress (R27). -/
def begin (s : State P) : State P := { s with busy := true }

/-- An operation's last event has been emitted (R27); after a provider failure `busy` stays true (R180). -/
def finish (s : State P) : State P := if s.providerFault then s else { s with busy := false }

/-- A Display API operation: refused on the first ground that applies, else its events, with `seq` and the
handle unchanged (R160, R173, R176). With no handle there is no pin to address (R42); a run never gets
there, because `Ready` is reached only through INIT. -/
def apiOperation [DecidableEq P] [LT P] [DecidableLT P] (events : Config → Handle P → List (Event P))
    (s : State P) : State P :=
  match apiGround s with
  | some g => refuse g s
  | none =>
    match s.handle with
    | some h => finish (emitAll (begin s) (events s.config h))
    | none => refuse .noHandle s

/-- INIT: refused on the first ground that applies (R173), else the handle is written first (R122), `seq`
goes back to `Unpowered` (R120, R133) and the eight transitions run (R121). -/
def initOperation [DecidableEq P] [LT P] [DecidableLT P] (h : Handle P) (s : State P) : State P :=
  match initGround h s with
  | some g => refuse g s
  | none =>
    finish ((initPhases s.config h).foldl transition
      { begin s with handle := some h, seq := .unpowered })

/-- A primitive or a bus word: its events on the current handle, nothing else (R100 to R108; logs 11, 12). -/
def engineOperation [DecidableEq P] [LT P] [DecidableLT P] (events : Config → Handle P → List (Event P))
    (s : State P) : State P :=
  match s.handle with
  | some h => emitAll s (events s.config h)
  | none => refuse .noHandle s

end Sys2Proof.Machine
end

