-- ==== Sys2Proof/Machine/BusWords.lean ====
section
/-! DEFINITION. The meanings of the display bus words (R80 to R84, 30_encoding.md): the block conveys the word. A 9-bit
word goes out as one SEND_BYTE (R80), a single-nibble word as one TRANSMIT_NIBBLE "with RS as it stands" (R81).
What the display does with it is outside the block (R5 (g)). -/

namespace Sys2Proof.Machine

variable {P : Type} [DecidableEq P] [LT P] [DecidableLT P]

/-- RESET_NIBBLE (R81, R125). -/
def execResetNibble (s : State P) : Host.Outcome (State P) Fault Refusal :=
  .next (engineOperation (fun c h => transmitNibble c h wordResetNibble.n) s)

/-- MODE4_NIBBLE (R81, R126). -/
def execMode4Nibble (s : State P) : Host.Outcome (State P) Fault Refusal :=
  .next (engineOperation (fun c h => transmitNibble c h wordMode4Nibble.n) s)

/-- FUNCTION_SET (R83, R127). -/
def execFunctionSet (l n f : Bool) (x : BitVec 2) (s : State P) : Host.Outcome (State P) Fault Refusal :=
  .next (engineOperation (fun c h => sendWord c h (wordFunctionSet l n f x)) s)

/-- DISPLAY_CONTROL (R83, R128). -/
def execDisplayControl (d c b : Bool) (s : State P) : Host.Outcome (State P) Fault Refusal :=
  .next (engineOperation (fun cfg h => sendWord cfg h (wordDisplayControl d c b)) s)

/-- CLEAR_DISPLAY (R83, R140). -/
def execClearDisplay (s : State P) : Host.Outcome (State P) Fault Refusal :=
  .next (engineOperation (fun c h => sendWord c h wordClearDisplay) s)

/-- ENTRY_MODE_SET (R83, R130). -/
def execEntryModeSet (i sh : Bool) (s : State P) : Host.Outcome (State P) Fault Refusal :=
  .next (engineOperation (fun c h => sendWord c h (wordEntryModeSet i sh)) s)

/-- SET_DDRAM_ADDR (R83, R146). -/
def execSetDdramAddr (a : BitVec 7) (s : State P) : Host.Outcome (State P) Fault Refusal :=
  .next (engineOperation (fun c h => sendWord c h (wordSetDdramAddr a)) s)

/-- SET_CGRAM_ADDR (R83, R156). -/
def execSetCgramAddr (a : BitVec 6) (s : State P) : Host.Outcome (State P) Fault Refusal :=
  .next (engineOperation (fun c h => sendWord c h (wordSetCgramAddr a)) s)

/-- WRITE_DATA (R83, R108). -/
def execWriteData (d : Byte) (s : State P) : Host.Outcome (State P) Fault Refusal :=
  .next (engineOperation (fun c h => sendWord c h (wordWriteData d)) s)

end Sys2Proof.Machine
end

