-- ==== Sys2Proof/Machine/DisplayApi.lean ====
section
/-! DEFINITION. The meanings of the Display API (42_display_api.md). -/

namespace Sys2Proof.Machine

variable {P : Type} [DecidableEq P] [LT P] [DecidableLT P]

/-- CLEAR (R140, R141). -/
def execClear (s : State P) : Host.Outcome (State P) Fault Refusal := .next (apiOperation clearEvents s)

/-- SET_CURSOR(row, column) (R144 to R147). -/
def execSetCursor (row column : Byte) (s : State P) : Host.Outcome (State P) Fault Refusal :=
  .next (apiOperation (setCursorEvents row column) s)

/-- PRINT(text) (R150, R151). -/
def execPrint (text : List Byte) (s : State P) : Host.Outcome (State P) Fault Refusal :=
  .next (apiOperation (printEvents text) s)

/-- PRINT_GLYPH(code) (R152). -/
def execPrintGlyph (code : Byte) (s : State P) : Host.Outcome (State P) Fault Refusal :=
  .next (apiOperation (printGlyphEvents code) s)

/-- CREATE_GLYPH(index, bitmap) (R154 to R158). -/
def execCreateGlyph (index : Byte) (bitmap : Bitmap) (s : State P) : Host.Outcome (State P) Fault Refusal :=
  .next (apiOperation (createGlyphEvents index bitmap) s)

end Sys2Proof.Machine
end

