-- ==== Sys2Proof/Machine/Engine.lean ====
section
/-! DEFINITION. The meanings of the Protocol Engine's primitives (40_protocol_engine.md). The host cannot issue them
(R71): the step never decodes one. -/

namespace Sys2Proof.Machine

variable {P : Type} [DecidableEq P] [LT P] [DecidableLT P]

/-- PULSE_ENABLE (R100). -/
def execPulseEnable (s : State P) : Host.Outcome (State P) Fault Refusal := .next (engineOperation pulseEnable s)

/-- TRANSMIT_NIBBLE(v) (R102). -/
def execTransmitNibble (v : Nibble) (s : State P) : Host.Outcome (State P) Fault Refusal :=
  .next (engineOperation (fun c h => transmitNibble c h v) s)

/-- SEND_BYTE(value, is_data) (R104). -/
def execSendByte (value : Byte) (isData : Bool) (s : State P) : Host.Outcome (State P) Fault Refusal :=
  .next (engineOperation (fun c h => sendByte c h value isData) s)

/-- SEND_COMMAND(value) (R106). -/
def execSendCommand (value : Byte) (s : State P) : Host.Outcome (State P) Fault Refusal :=
  .next (engineOperation (fun c h => sendCommand c h value) s)

/-- SEND_DATA(value) (R108). -/
def execSendData (value : Byte) (s : State P) : Host.Outcome (State P) Fault Refusal :=
  .next (engineOperation (fun c h => sendData c h value) s)

end Sys2Proof.Machine
end

