-- ==== Sys2Proof/Machine/Init.lean ====
section
/-! DEFINITION. The meaning of INIT (41_initialization.md). -/

namespace Sys2Proof.Machine

variable {P : Type} [DecidableEq P] [LT P] [DecidableLT P]

/-- INIT(rs, en, d4, d5, d6, d7) (R120 to R136). -/
def execInit (rs en d4 d5 d6 d7 : P) (s : State P) : Host.Outcome (State P) Fault Refusal :=
  .next (initOperation ⟨rs, en, d4, d5, d6, d7⟩ s)

end Sys2Proof.Machine
end

