-- ==== Sys2Proof/Machine/Dispatch.lean ====
section
/-! DEFINITION. One arm per row of spec/opcode_table.json. -/

namespace Sys2Proof.Machine

def exec (i : Instr) (s : State) : Host.Outcome State Fault Refusal :=
  match i with
  -- host operations
  | .init rs en d4 d5 d6 d7 => Sys2Proof.Machine.execInit rs en d4 d5 d6 d7 s
  | .clear => Sys2Proof.Machine.execClear s
  | .setCursor row column => Sys2Proof.Machine.execSetCursor row column s
  | .print text => Sys2Proof.Machine.execPrint text s
  | .printGlyph code => Sys2Proof.Machine.execPrintGlyph code s
  | .createGlyph index bitmap => Sys2Proof.Machine.execCreateGlyph index bitmap s
  -- primitives
  | .pulseEnable => Sys2Proof.Machine.execPulseEnable s
  | .transmitNibble v => Sys2Proof.Machine.execTransmitNibble v s
  | .sendByte value isData => Sys2Proof.Machine.execSendByte value isData s
  | .sendCommand value => Sys2Proof.Machine.execSendCommand value s
  | .sendData value => Sys2Proof.Machine.execSendData value s
  -- bus words
  | .resetNibble => Sys2Proof.Machine.execResetNibble s
  | .mode4Nibble => Sys2Proof.Machine.execMode4Nibble s
  | .functionSet l n f x => Sys2Proof.Machine.execFunctionSet l n f x s
  | .displayControl d c b => Sys2Proof.Machine.execDisplayControl d c b s
  | .clearDisplay => Sys2Proof.Machine.execClearDisplay s
  | .entryModeSet m sh => Sys2Proof.Machine.execEntryModeSet m sh s
  | .setDdramAddr a => Sys2Proof.Machine.execSetDdramAddr a s
  | .setCgramAddr a => Sys2Proof.Machine.execSetCgramAddr a s
  | .writeData d => Sys2Proof.Machine.execWriteData d s

end Sys2Proof.Machine
end

