-- ==== Sys2Proof/Machine/Fetch.lean ====
section
/-! DEFINITION. How an operation comes from the host command stream to the sequencer (R63, R73, R90, R178, R200). -/

namespace Sys2Proof.Machine

/-- What the host command port does next. -/
inductive Fetched where
  /-- The configuration is not one of this hardware (R110, U10). -/
  | illegalConfiguration
  /-- Nothing is accepted: the state stays as it is. -/
  | wait
  /-- The stream spells no operation (R90): the state after the refusal. -/
  | malformed (s' : State)
  /-- An operation is accepted for issue; `s'` is the state with its bytes consumed. -/
  | operation (i : Instr) (s' : State)

/-- The stream left after a malformed request. Where the next operation would begin is lost, so nothing of
it is read as an operation. DESIGN CHOICE, log 7. -/
def streamAfterMalformed (_stream : List Byte) : List Byte := []

/-- A malformed request is refused (R90, R179). -/
def refuseMalformed (s : State) : State :=
  refuse .malformed { s with stream := streamAfterMalformed s.stream }

/-- The host command port. While `busy` "the host has no move" (R178): that is so only after a provider
failure, for ever (R180). With an empty stream the block waits (R200). Otherwise one whole operation is
consumed (R63, R73). -/
def fetch (s : State) : Fetched :=
  if s.config.legal then
    if s.busy then .wait
    else
      match decode s.stream with
      | .empty => .wait
      | .instr i rest => .operation i { s with stream := rest }
      | .reservedOpcode _ => .malformed (refuseMalformed s)
      | .truncated => .malformed (refuseMalformed s)
  else .illegalConfiguration

end Sys2Proof.Machine
end

