-- ==== Sys2Proof/Machine/Step.lean ====
section
/-! DEFINITION. One step: one operation of the host, indivisible (R26, D1). -/

namespace Sys2Proof.Machine

/-- Issue the next operation of the host command stream and run it to its last event. -/
def step (s : State) : Host.Outcome State Fault Refusal :=
  match fetch s with
  | .illegalConfiguration => .refused .illegalConfiguration
  | .wait => .next s
  | .malformed s' => .next s'
  | .operation i s' => exec i s'

/-- The state in which the operation the host-stream decoder reads from a word of the opcode table is the
next one the host has issued (log 9). -/
def State.withFetchWord (s : State) (nbits w : Nat) : State :=
  { s with stream := operationBytes nbits w ++ s.stream }

end Sys2Proof.Machine
end

