-- ==== Sys2Proof/Machine/Assembler.lean ====
section
/-! DEFINITION. The textual form of programs (R95, 30_encoding.md): "One operation per line". Notation only (D19); the
machine runs the byte stream. Details R95 does not give are DESIGN CHOICE, log 17. -/

namespace Sys2Proof.Machine

/-- A word, a number, a string or a comma of a line. -/
inductive Token where
  | name (cs : List Char)
  | num (v : Byte)
  | str (codes : List Byte)
  | comma
  deriving DecidableEq, Repr

/-- Where the lexer stands; texts being read are held in reverse. -/
inductive LexMode where
  | between
  | inWord (acc : List Char)
  | inString (acc : List Byte)
  | inEscape (acc : List Byte)
  | inHex1 (acc : List Byte)
  | inHex2 (acc : List Byte) (high : Nat)
  | inComment
  deriving DecidableEq, Repr

/-- The value of a hexadecimal digit, in either case. -/
def hexDigit (c : Char) : Option Nat :=
  if '0' ≤ c ∧ c ≤ '9' then some (c.toNat - '0'.toNat)
  else if 'a' ≤ c ∧ c ≤ 'f' then some (c.toNat - 'a'.toNat + 10)
  else if 'A' ≤ c ∧ c ≤ 'F' then some (c.toNat - 'A'.toNat + 10)
  else none

/-- The value of a decimal digit. -/
def decDigit (c : Char) : Option Nat :=
  if '0' ≤ c ∧ c ≤ '9' then some (c.toNat - '0'.toNat) else none

/-- A non-empty row of digits in a base. -/
def digits (base : Nat) (digit : Char → Option Nat) : List Char → Option Nat
  | [] => none
  | c :: cs => (c :: cs).foldlM (fun n d => (digit d).map (fun v => n * base + v)) 0

/-- "numbers are decimal or `0x` hexadecimal, 0 to 255" (R95). -/
def number (cs : List Char) : Option Byte :=
  let n := match cs with
    | '0' :: 'x' :: hex => digits 16 hexDigit hex
    | dec => digits 10 decDigit dec
  match n with
  | some v => if v ≤ 255 then some (BitVec.ofNat 8 v) else none
  | none => none

/-- A letter, a digit or an underscore: the characters of a mnemonic or a number. -/
def wordChar (c : Char) : Bool :=
  (decDigit c).isSome || ('a' ≤ c && c ≤ 'z') || ('A' ≤ c && c ≤ 'Z') || c = '_'

/-- A finished word is a number if it begins with a digit, else a name. -/
def wordToken (cs : List Char) : Option Token :=
  match cs with
  | [] => none
  | c :: _ => if (decDigit c).isSome then (number cs).map Token.num else some (.name cs)

/-- White space inside a line. -/
def blankChar (c : Char) : Bool := c = ' ' || c = '\t' || c = '\r'

/-- A character outside words, strings and comments: the mode and the tokens after it. -/
def lexBetween (c : Char) (out : List Token) : Option (LexMode × List Token) :=
  if blankChar c then some (.between, out)
  else if c = ',' then some (.between, .comma :: out)
  else if c = '"' then some (.inString [], out)
  else if c = ';' then some (.inComment, out)
  else if wordChar c then some (.inWord [c], out)
  else none

/-- One character of a line. "each printable ASCII character stands for its ASCII code (0x20 to 0x7E),
`\xHH` for the code 0xHH, `\"` for 0x22 and `\\` for 0x5C" (R95). -/
def lexChar (c : Char) : LexMode × List Token → Option (LexMode × List Token)
  | (.between, out) => lexBetween c out
  | (.inWord acc, out) =>
    if wordChar c then some (.inWord (c :: acc), out)
    else (wordToken acc.reverse).bind (fun t => lexBetween c (t :: out))
  | (.inString acc, out) =>
    if c = '"' then some (.between, .str acc.reverse :: out)
    else if c = '\\' then some (.inEscape acc, out)
    else if 0x20 ≤ c.toNat ∧ c.toNat ≤ 0x7E then some (.inString (BitVec.ofNat 8 c.toNat :: acc), out)
    else none
  | (.inEscape acc, out) =>
    if c = '"' then some (.inString (0x22 :: acc), out)
    else if c = '\\' then some (.inString (0x5C :: acc), out)
    else if c = 'x' then some (.inHex1 acc, out)
    else none
  | (.inHex1 acc, out) => (hexDigit c).map (fun v => (.inHex2 acc v, out))
  | (.inHex2 acc high, out) =>
    (hexDigit c).map (fun v => (.inString (BitVec.ofNat 8 (high * 16 + v) :: acc), out))
  | (.inComment, out) => some (.inComment, out)

/-- The tokens of a line. -/
def lexLine (line : List Char) : Option (List Token) :=
  match line.foldlM (fun st c => lexChar c st) (LexMode.between, []) with
  | some (.between, out) => some out.reverse
  | some (.inComment, out) => some out.reverse
  | some (.inWord acc, out) => (wordToken acc.reverse).map (fun t => (t :: out).reverse)
  | some (.inString _, _) => none
  | some (.inEscape _, _) => none
  | some (.inHex1 _, _) => none
  | some (.inHex2 _ _, _) => none
  | none => none

/-- "operands are separated by commas" (R95): one number or more. -/
def operands : List Token → Option (List Byte)
  | [.num v] => some [v]
  | .num v :: .comma :: rest => (operands rest).map (v :: ·)
  | _ => none

/-- The operation of a line's tokens, by the list of R95. -/
def operationOf : List Token → Option Instr
  | [.name ['c', 'l', 'e', 'a', 'r']] => some .clear
  | [.name ['p', 'r', 'i', 'n', 't'], .str text] => some (.print text)
  | .name mnemonic :: rest =>
    match operands rest with
    | some [rs, en, d4, d5, d6, d7] =>
      if mnemonic = "init".toList then some (.init rs en d4 d5 d6 d7) else none
    | some [row, column] =>
      if mnemonic = "set_cursor".toList then some (.setCursor row column) else none
    | some [code] => if mnemonic = "print_glyph".toList then some (.printGlyph code) else none
    | some [index, b0, b1, b2, b3, b4, b5, b6, b7] =>
      if mnemonic = "create_glyph".toList then
        some (.createGlyph index ⟨b0, b1, b2, b3, b4, b5, b6, b7⟩)
      else none
    | _ => none
  | _ => none

/-- One line: an operation, or nothing on a blank or comment line. -/
def assembleLine (line : List Char) : Option (List Instr) :=
  match lexLine line with
  | some [] => some []
  | some tokens => (operationOf tokens).map (fun i => [i])
  | none => none

/-- The lines of a text. -/
def splitLines : List Char → List (List Char)
  | [] => [[]]
  | c :: cs =>
    if c = '\n' then [] :: splitLines cs
    else
      match splitLines cs with
      | line :: lines => (c :: line) :: lines
      | [] => [[c]]

/-- A program text as operations; none if a line is not of R95's form. -/
def assemble (text : List Char) : Option (List Instr) :=
  ((splitLines text).mapM assembleLine).map List.flatten

/-- The host command stream of a list of operations (R72). None where an operation has no encoding: R95 sets a
text no bound and PRINT's length is one byte, 0 to 255 (R74), so a `print` line of more than 255 characters is
an operation that no stream spells. DESIGN CHOICE, log 17: it is not cut, and not sent in pieces. -/
def hostStream (ops : List Instr) : Option (List Byte) :=
  if ops.all Instr.wellFormed then some (ops.flatMap encode) else none

end Sys2Proof.Machine
end

