-- ==== Sys2Proof/Machine/Program.lean ====
section
/-! DEFINITION. The operations once more, over pin identifiers of any type (R10) and event by event (R26, R190): what a
model of several instances needs. That it comes to the same as `exec` is stated in the obligations. -/

namespace Sys2Proof.Machine

variable {P : Type}

/-- What an operation is, with its operands: an INIT of a handle (R120), a Display API operation (R140 to R158)
or a primitive or bus word (R80, R81, R100 to R108) with its events. -/
inductive Plan (P : Type := PinId) where
  | handshake (h : Handle P)
  | api (events : Config → Handle P → List (Event P))
  | engine (events : Config → Handle P → List (Event P))

/-- The plan of each operation. INIT's operands come as the bytes of the host command stream (R72); `name` says
which pins they mean, which is the platform's affair (R54). -/
def plan (name : PinId → P) : Instr → Plan P
  | .init rs en d4 d5 d6 d7 => .handshake ⟨name rs, name en, name d4, name d5, name d6, name d7⟩
  | .clear => .api clearEvents
  | .setCursor row column => .api (setCursorEvents row column)
  | .print text => .api (printEvents text)
  | .printGlyph code => .api (printGlyphEvents code)
  | .createGlyph index bitmap => .api (createGlyphEvents index bitmap)
  | .pulseEnable => .engine pulseEnable
  | .transmitNibble v => .engine (fun c h => transmitNibble c h v)
  | .sendByte value isData => .engine (fun c h => sendByte c h value isData)
  | .sendCommand value => .engine (fun c h => sendCommand c h value)
  | .sendData value => .engine (fun c h => sendData c h value)
  | .resetNibble => .engine (fun c h => transmitNibble c h wordResetNibble.n)
  | .mode4Nibble => .engine (fun c h => transmitNibble c h wordMode4Nibble.n)
  | .functionSet l n f x => .engine (fun c h => sendWord c h (wordFunctionSet l n f x))
  | .displayControl d c b => .engine (fun cfg h => sendWord cfg h (wordDisplayControl d c b))
  | .clearDisplay => .engine (fun c h => sendWord c h wordClearDisplay)
  | .entryModeSet i sh => .engine (fun c h => sendWord c h (wordEntryModeSet i sh))
  | .setDdramAddr a => .engine (fun c h => sendWord c h (wordSetDdramAddr a))
  | .setCgramAddr a => .engine (fun c h => sendWord c h (wordSetCgramAddr a))
  | .writeData d => .engine (fun c h => sendWord c h (wordWriteData d))

/-- An operation as one indivisible step, over pin identifiers of any type. -/
def perform [DecidableEq P] [LT P] [DecidableLT P] (name : PinId → P) (i : Instr) (s : State P) : State P :=
  match plan name i with
  | .handshake h => initOperation h s
  | .api events => apiOperation events s
  | .engine events => engineOperation events s

/-- The same handle under other names. -/
def Handle.rename {Q : Type} (f : P → Q) (h : Handle P) : Handle Q :=
  ⟨f h.rs, f h.en, f h.d4, f h.d5, f h.d6, f h.d7⟩

/-- The same event under other names. -/
def Event.rename {Q : Type} (f : P → Q) : Event P → Event Q
  | .cfg p => .cfg (f p)
  | .hi p => .hi (f p)
  | .lo p => .lo (f p)
  | .dms n => .dms n
  | .dus n => .dus n

/-- The same state under other names of the pins. -/
def State.rename {Q : Type} (f : P → Q) (s : State P) : State Q where
  config := s.config
  failing := s.failing.map (Event.rename f)
  foreignPins := s.foreignPins.map f
  stream := s.stream
  handle := s.handle.map (Handle.rename f)
  seq := s.seq
  busy := s.busy
  pins := s.pins.map (fun a => (f a.1, a.2))
  trace := s.trace.map (Event.rename f)
  refused := s.refused
  ground := s.ground
  providerFault := s.providerFault

/-! ## Event by event -/

/-- What is still to be done of an operation in progress. -/
inductive Micro (P : Type := PinId) where
  /-- One call on a provider (R12). -/
  | emit (e : Event P)
  /-- INIT reaches a state (R121). -/
  | reach (q : Seq)
  /-- The last event has been emitted (R27). -/
  | done
  deriving DecidableEq, Repr

/-- An instance between two events: its state and the rest of its operation, the "position index into the
operation's event list" of R26. -/
structure Running (P : Type := PinId) where
  state : State P
  todo : List (Micro P)
  deriving DecidableEq, Repr

/-- A list of events, still to be emitted. -/
def Micro.ofEvents (es : List (Event P)) : List (Micro P) := es.map Micro.emit

/-- The eight transitions of INIT (R121), still to be made. -/
def Micro.ofPhases (phases : List (List (Event P) × Seq)) : List (Micro P) :=
  phases.flatMap (fun ph => Micro.ofEvents ph.1 ++ [.reach ph.2])

/-- The issue of an operation: what happens before its first event. A refused one has nothing to do (R175); an
accepted one is in progress (R27), and an INIT has written its handle (R122) and `seq` (R120). -/
def issue [DecidableEq P] (name : PinId → P) (i : Instr) (s : State P) : Running P :=
  match plan name i with
  | .handshake h =>
    match initGround h s with
    | some g => ⟨refuse g s, []⟩
    | none =>
      ⟨{ begin s with handle := some h, seq := .unpowered },
        Micro.ofPhases (initPhases s.config h) ++ [.done]⟩
  | .api events =>
    match apiGround s with
    | some g => ⟨refuse g s, []⟩
    | none =>
      match s.handle with
      | some h => ⟨begin s, Micro.ofEvents (events s.config h) ++ [.done]⟩
      | none => ⟨refuse .noHandle s, []⟩
  | .engine events =>
    match s.handle with
    | some h => ⟨s, Micro.ofEvents (events s.config h)⟩
    | none => ⟨refuse .noHandle s, []⟩

/-- The next event, or the next change of `seq` or `busy`. At a provider failure the operation stops (R180):
nothing is left to do. -/
def Running.tick [DecidableEq P] [LT P] [DecidableLT P] (r : Running P) : Running P :=
  match r.todo with
  | [] => r
  | .emit e :: rest =>
    let s := Sys2Proof.Machine.emit r.state e
    ⟨s, if s.providerFault then [] else rest⟩
  | .reach q :: rest => ⟨{ r.state with seq := q }, rest⟩
  | .done :: rest => ⟨finish r.state, rest⟩

/-- `n` ticks. -/
def Running.ticks [DecidableEq P] [LT P] [DecidableLT P] : Nat → Running P → Running P
  | 0, r => r
  | n + 1, r => Running.ticks n r.tick

end Sys2Proof.Machine
end

