-- ==== Sys2Proof/Machine/Fleet.lean ====
section
/-! DEFINITION. Several instances of the block (R190, R191): "Instances share no state; each has its own handle, `seq`
and `busy`." Their events interleave in any order (D1, R190): a step of the fleet is one event of one instance,
and which instance is next is an input. -/

namespace Sys2Proof.Machine

/-- The instances, each between two of its events, and all events emitted, each with the place of the instance
that emitted it, in order. The common trace is an observation (R30); no instance reads it. -/
structure Fleet where
  members : List Running
  trace : List (Nat × Event)
  deriving DecidableEq, Repr

/-- The pins an instance's handle holds (R191), from the moment an INIT is accepted (R122). -/
def Running.heldPins (r : Running) : List PinId :=
  match r.state.handle with
  | some h => h.pins
  | none => []

/-- The pins held by the handles of all instances but the `k`-th. -/
def Fleet.foreignPins (f : Fleet) (k : Nat) : List PinId :=
  (f.members.eraseIdx k).flatMap Running.heldPins

/-- The `k`-th instance has moved on to `r`; `es` is what it emitted. -/
def Fleet.move (f : Fleet) (k : Nat) (r : Running) (es : List Event) : Fleet where
  members := f.members.set k r
  trace := f.trace ++ es.map (fun e => (k, e))

/-- The events an instance in the state `s` has emitted since its trace was `old`. -/
def State.emittedSince (s : State) (old : List Event) : List Event := s.trace.drop old.length

/-- The `k`-th instance moves: it goes on with the operation in progress, or, with none, takes the next from
its host (R63), seeing what the others hold (R191). There is no `k`-th instance: nothing happens. -/
def Fleet.step (f : Fleet) (k : Nat) : Host.Outcome Fleet Fault Refusal :=
  match f.members[k]? with
  | none => .next f
  | some r =>
    match r.todo with
    | _ :: _ => .next (f.move k r.tick (r.tick.state.emittedSince r.state.trace))
    | [] =>
      match fetch { r.state with foreignPins := f.foreignPins k } with
      | .illegalConfiguration => .refused .illegalConfiguration
      | .wait => .next f
      | .malformed s => .next (f.move k ⟨s, []⟩ [])
      | .operation i s => .next (f.move k (issue id i s) [])

/-- The fleet moves as a schedule says, stopping at the first step that is refused. -/
def Fleet.run (f : Fleet) : List Nat → Host.Outcome Fleet Fault Refusal
  | [] => .next f
  | k :: ks =>
    match f.step k with
    | .next g => g.run ks
    | .fault r => .fault r
    | .refused r => .refused r

/-- What the Digital I/O provider common to all holds for the pins (R28). -/
def Fleet.pins (f : Fleet) : Pins := Pins.applyAll [] (f.trace.map Prod.snd)

/-- The events of the `k`-th instance in the common trace. -/
def Fleet.traceOf (f : Fleet) (k : Nat) : List Event :=
  (f.trace.filter (fun x => x.1 = k)).map Prod.snd

end Sys2Proof.Machine
end

