-- ==== Sys2Proof/Machine/Timing.lean ====
section
/-! DEFINITION. Least durations (R31, R215, R216): the sum of the delay arguments, a lower bound only. The machine has no
clock (R7). -/

namespace Sys2Proof.Machine

/-- The least time an event takes, in microseconds (R12, R31). -/
def Event.leastMicros : Event → Nat
  | .cfg _ => 0
  | .hi _ => 0
  | .lo _ => 0
  | .dms n => 1000 * n
  | .dus n => n

/-- The least duration of a list of events, in microseconds (R215). -/
def leastMicros (es : List Event) : Nat := (es.map Event.leastMicros).sum

/-- `P = T_E_PRE + T_E_WIDTH + T_E_POST` (R215). -/
def Config.pulseMicros (c : Config) : Nat := c.tEPre + c.tEWidth + c.tEPost

/-- Every delay the block asks for is one of its eight parameters, with the right provider call (R186). -/
def delayAllowed (c : Config) : Event → Bool
  | .dms n => [c.tPowerupMs, c.tReset1Ms, c.tReset2Ms, c.tReset3Ms, c.tClearMs].contains n
  | .dus n => [c.tEPre, c.tEWidth, c.tEPost].contains n
  | .cfg _ => true
  | .hi _ => true
  | .lo _ => true

end Sys2Proof.Machine
end

