-- ==== Sys2Proof/Machine/View.lean ====
section
/-! DEFINITION. What the pins convey: the latched view (R50), its cutting into words (R51, R80 to R82), the stability of
RS and the data pins (R29), and what the display has been told (R37, R38, R40). Functions of events; the block
reads none of it. -/

namespace Sys2Proof.Machine

variable {P : Type}

/-- A known level as a bit. -/
def Level.bit : Level → Option Bool
  | .unknown => none
  | .low => some false
  | .high => some true

/-- The level of a pin as a bit, where it is known. -/
def Pins.bit [DecidableEq P] (ps : Pins P) (p : P) : Option Bool := (ps.get p).level.bit

/-- A transfer: the pair `(rs, n)` the display can latch at one enable pulse (R50). -/
abbrev Transfer := Bool × Nibble

/-- The pair `(rs, n)` on a handle's pins, `n = level(D7)·8 + level(D6)·4 + level(D5)·2 + level(D4)` (R50);
none while one of the five levels is unknown. -/
def transferAt [DecidableEq P] (h : Handle P) (ps : Pins P) : Option Transfer :=
  match ps.bit h.rs, ps.bit h.d7, ps.bit h.d6, ps.bit h.d5, ps.bit h.d4 with
  | some rs, some b3, some b2, some b1, some b0 => some (rs, bit b3 ++ bit b2 ++ bit b1 ++ bit b0)
  | _, _, _, _, _ => none

/-- The latched view (R50): the pair "at each event `LO(E)` that finds `level(E) = high`", for the events
`es` from the shadow `ps` on. -/
def latchedView [DecidableEq P] [LT P] [DecidableLT P] (h : Handle P) :
    Pins P → List (Event P) → List (Option Transfer)
  | _, [] => []
  | ps, e :: es =>
    if e = .lo h.en ∧ (ps.get h.en).level = .high then
      transferAt h ps :: latchedView h (ps.apply e) es
    else latchedView h (ps.apply e) es

/-- The pin an event acts on, for the three pin events. -/
def Event.pin : Event P → Option P
  | .cfg p => some p
  | .hi p => some p
  | .lo p => some p
  | .dms _ => none
  | .dus _ => none

/-- An event on a handle's RS or data pins. -/
def touchesData [DecidableEq P] (h : Handle P) (e : Event P) : Bool :=
  match e.pin with
  | some p => [h.rs, h.d4, h.d5, h.d6, h.d7].contains p
  | none => false

/-- "RS and D4 to D7 never change while E is high" (R29): no event of `es` acts on one of them at a moment
when E is high. -/
def stableWhileHigh [DecidableEq P] [LT P] [DecidableLT P] (h : Handle P) : Pins P → List (Event P) → Bool
  | _, [] => true
  | ps, e :: es =>
    (!(touchesData h e && decide ((ps.get h.en).level = .high))) && stableWhileHigh h (ps.apply e) es

/-- A message to the display (R80, R81). -/
inductive Message where
  /-- A single-nibble word. -/
  | single (w : NibbleWord)
  /-- A bus word. -/
  | word (w : BusWord)
  /-- The high half of a bus word whose low half never came: a provider failed between the two (R180). -/
  | half (w : NibbleWord)
  deriving DecidableEq, Repr

/-- Transfers pair up, "first of the pair the high nibble, second the low nibble, both with the same RS"
(R51). None where two do not pair, or a level is unknown. -/
def pairUp : List (Option Transfer) → Option (List Message)
  | [] => some []
  | [some (rs, high)] => some [.half ⟨rs, high⟩]
  | some (r1, high) :: some (r2, low) :: rest =>
    if r1 = r2 then (pairUp rest).map (fun ms => Message.word ⟨r1, high ++ low⟩ :: ms) else none
  | _ => none

/-- The next `k` transfers are single-nibble words, all later ones pair. -/
def cutSingles : Nat → List (Option Transfer) → Option (List Message)
  | 0, ts => pairUp ts
  | _ + 1, [] => some []
  | k + 1, some (rs, n) :: ts => (cutSingles k ts).map (fun ms => .single ⟨rs, n⟩ :: ms)
  | _ + 1, none :: _ => none

/-- "the first four transfers after the start of an INIT are single-nibble words; all later ones pair into bus
words until the next INIT begins" (R82); also where the INIT stopped before its fourth (R180). -/
def cutInit (ts : List (Option Transfer)) : Option (List Message) := cutSingles 4 ts

/-- The row of the opcode table a message is an instance of (R83); none for a word the table lacks. -/
def Message.row : Message → Option Instr
  | .single w => decodeNibble w
  | .word w => decodeBus w
  | .half _ => none

/-- Whether an event is a `CFG`: the block emits it in INIT step 1 and nowhere else (R123). -/
def Event.isCfg : Event P → Bool
  | .cfg _ => true
  | .hi _ => false
  | .lo _ => false
  | .dms _ => false
  | .dus _ => false

/-- `splitInits` with the event before (`afterCfg`: it was a `CFG`) and the events of the stretch so far. -/
def splitInitsFrom (afterCfg : Bool) (stretch : List (Event P)) : List (Event P) → List (List (Event P))
  | [] => [stretch]
  | e :: es =>
    if e.isCfg && !afterCfg then stretch :: splitInitsFrom true [e] es
    else splitInitsFrom e.isCfg (stretch ++ [e]) es

/-- A trace cut where an INIT begins, which is where a run of `CFG` events begins (R82, R123; DEDUCED, log 16):
the events before the first INIT, then for each INIT its own and those up to the next. -/
def splitInits (trace : List (Event P)) : List (List (Event P)) := splitInitsFrom false [] trace

/-- The handle of an INIT that begins a stretch: the pins of its six `CFG`, in handle field order (R123).
None for a stretch that begins with fewer. -/
def handleOfInit : List (Event P) → Option (Handle P)
  | .cfg rs :: .cfg en :: .cfg d4 :: .cfg d5 :: .cfg d6 :: .cfg d7 :: _ => some ⟨rs, en, d4, d5, d6, d7⟩
  | _ => none

/-- The messages of one stretch, on the handle of the INIT that begins it. A stretch without such an INIT
has no handle and sends nothing (R42).
DESIGN CHOICE, log 21: the view is taken from the empty shadow. Where the INIT names as E a pin an earlier
handle left high (its RS, say), R50 read on the whole trace would take one pair more, at step 1's `LO(E)`,
while R51 and R132 count the INIT's transfers from the first 0x3 nibble; that pair is dropped. -/
def stretchMessages [DecidableEq P] [LT P] [DecidableLT P] (es : List (Event P)) : Option (List Message) :=
  match handleOfInit es with
  | some h => cutInit (latchedView h [] es)
  | none => some []

/-- The messages of one stretch after another; none if one of them does not cut into words. -/
def cutStretches [DecidableEq P] [LT P] [DecidableLT P] : List (List (Event P)) → Option (List Message)
  | [] => some []
  | es :: rest =>
    match stretchMessages es, cutStretches rest with
    | some a, some b => some (a ++ b)
    | _, _ => none

/-- All messages of a trace, cut anew at every INIT (R51, R82). -/
def messages [DecidableEq P] [LT P] [DecidableLT P] (trace : List (Event P)) : Option (List Message) :=
  cutStretches (splitInits trace)

/-- The events of a trace from the beginning of its last INIT on; all of them where there was none. -/
def sinceInit (trace : List (Event P)) : List (Event P) := (splitInits trace).getLast?.getD []

/-! ## What the display has been told (R37, R38, R40, R55)

Not the display's state: the block cannot see that (R181), and R5 (g) leaves it out. -/

/-- The two RAMs of the display an address command selects (R38). -/
inductive Ram where
  | ddram
  | cgram
  deriving DecidableEq, Repr

/-- What the words sent to the display have said. -/
structure Told where
  /-- The last address command: "the display decides from the last address command it received" (R55). -/
  address : Option (Ram × Nat)
  /-- The data bytes since that command, in order. -/
  data : List Byte
  /-- The last function-set byte (R40). -/
  functionSet : Option Byte
  /-- The last display-control byte (R40). -/
  displayControl : Option Byte
  /-- The last entry-mode byte (R40). -/
  entryMode : Option Byte
  deriving DecidableEq, Repr

/-- Nothing has been said. -/
def Told.nothing : Told := ⟨none, [], none, none, none⟩

/-- What one bus word adds. CLEAR_DISPLAY is not counted as an address command: its effect on the cursor is
the display's, and the block re-asserts it (R141). -/
def Told.hear (t : Told) (w : BusWord) : Told :=
  match decodeBus w with
  | some (.setDdramAddr a) => { t with address := some (.ddram, a.toNat), data := [] }
  | some (.setCgramAddr a) => { t with address := some (.cgram, a.toNat), data := [] }
  | some (.writeData d) => { t with data := t.data ++ [d] }
  | some (.functionSet _ _ _ _) => { t with functionSet := some w.db }
  | some (.displayControl _ _ _) => { t with displayControl := some w.db }
  | some (.entryModeSet _ _) => { t with entryMode := some w.db }
  | some _ => t
  | none => t

/-- What one message adds. A single-nibble word is sent before the display is known to be in 4-bit mode, and
half a word is none; neither says anything that is kept here. -/
def Told.hearMessage (t : Told) : Message → Told
  | .single _ => t
  | .word w => t.hear w
  | .half _ => t

/-- What a list of messages has told the display. -/
def told (ms : List Message) : Told := ms.foldl Told.hearMessage Told.nothing

end Sys2Proof.Machine
end

