-- ==== Sys2Proof/Safety.lean ====
section
/-! DEFINITION. What counts as a safe run, and the conditions and invariants in which claims are stated. -/

namespace Sys2Proof.Machine

/-- Neither mark is set: no request was refused and no provider call failed (R32). Only of such a run does
the spec let a claim be made (R175, R180). -/
abbrev State.clean {P : Type} (s : State P) : Prop := s.refused = false ∧ s.providerFault = false

/-- "A run has ended when the host has no further operation to issue, `busy` is false, and neither
`refused` nor `provider_fault` is set" (D25). -/
abbrev State.ended {P : Type} (s : State P) : Prop := s.stream = [] ∧ s.busy = false ∧ s.clean

/-- No event of `es` is one on which the providers fail (R180). -/
abbrev State.quiet {P : Type} [DecidableEq P] (s : State P) (es : List (Event P)) : Prop := ∀ e ∈ es, s.failing.contains e = false

/-- A Display API operation issued now has its effect (R176, R178): the block is ready on handle `h`. -/
abbrev State.readyOn {P : Type} (s : State P) (h : Handle P) : Prop :=
  s.seq = .ready ∧ s.busy = false ∧ s.providerFault = false ∧ s.handle = some h

/-- A primitive or bus word issued now has its effect: there is a handle and no provider has failed. -/
abbrev State.engineOn {P : Type} (s : State P) (h : Handle P) : Prop := s.handle = some h ∧ s.providerFault = false

/-- An INIT of the handle `h` issued now is accepted (R177, R178, R191). -/
abbrev State.acceptsInit {P : Type} [DecidableEq P] (s : State P) (h : Handle P) : Prop :=
  s.busy = false ∧ s.providerFault = false ∧ h.distinct ∧ ∀ p ∈ h.pins, s.foreignPins.contains p = false

/-- "all six pins have `dir = output`; `level(E) = low`" and the levels of RS and D4 to D7 are known (R29). -/
abbrev Pins.idle (ps : Pins) (h : Handle) : Prop :=
  (∀ p ∈ h.pins, (ps.get p).dir = .output) ∧ (ps.get h.en).level = .low ∧
    ∀ p ∈ h.pins, (ps.get p).level ≠ .unknown

/-- The block at rest: before the first INIT with no handle, or `Ready` with a valid handle (R22, R23, R25,
R42) and its pins idle (R29). -/
def State.atRest (s : State) : Prop :=
  match s.handle with
  | none => s.seq = .unpowered
  | some h => s.seq = .ready ∧ h.distinct ∧ s.pins.idle h

/-- The pin shadow is in canonical form and is exactly what the trace makes of it (R28, R30). -/
abbrev State.shadowOfTrace (s : State) : Prop := s.pins.wf ∧ s.pins = Pins.applyAll [] s.trace

/-- `busy` outlives a step only after a provider failure (R26, R27, R180). -/
abbrev State.busyOnlyByFault (s : State) : Prop := s.busy = s.providerFault

/-- A ground has been reported exactly if a request has been refused (R173, R175; log 6). -/
abbrev State.groundIfRefused (s : State) : Prop := s.refused = s.ground.isSome

/-- The invariant every step keeps. -/
def State.Inv (s : State) : Prop :=
  s.config.legal ∧ s.shadowOfTrace ∧ s.busyOnlyByFault ∧ s.groundIfRefused ∧
    (s.busy = false → s.atRest)

/-- The six command bytes are those of R84. PRESUMED by the spec (general knowledge, log 15): a claim that
asks for this rests on them. -/
abbrev standardBytes (c : Config) : Prop :=
  c.byteFunctionSet = 0x28 ∧ c.byteDisplayControl = 0x0C ∧ c.byteClear = 0x01 ∧
    c.byteDdramBase = 0x80 ∧ c.byteEntryMode = 0x06 ∧ c.byteCgramBase = 0x40

/-- The messages the block emits, whatever the host does (R81, R84, R91): the two single-nibble words, the
one function set, display control and entry mode, clear display, "set DDRAM address" on a cell of the
configured rows, "set CGRAM address" on a multiple of 8, and every data byte. -/
def emittable (c : Config) (m : Message) : Bool :=
  match m.row with
  | some .resetNibble => true
  | some .mode4Nibble => true
  | some (.functionSet _ _ _ _) => m = .word ⟨false, 0x28⟩
  | some (.displayControl _ _ _) => m = .word ⟨false, 0x0C⟩
  | some (.entryModeSet _ _) => m = .word ⟨false, 0x06⟩
  | some .clearDisplay => true
  | some (.setDdramAddr a) => a.toNat % 0x40 < c.columnCount && a.toNat / 0x40 < c.rowCount
  | some (.setCgramAddr a) => a.toNat % 8 = 0
  | some (.writeData _) => true
  | some _ => false
  | none => false

/-- The framing never loses step, and nothing but the emittable messages is ever sent (R51, R82, R91): at rest
the whole trace, cut anew at every INIT, cuts into messages, each of them emittable; its last INIT is the one
that made the handle, and has sent its four single-nibble words; and the trace does not end inside the run of
`CFG` that begins an INIT. -/
def State.framed (s : State) : Prop :=
  s.busy = false →
    (∃ ms, messages s.trace = some ms ∧ ms.all (emittable s.config) = true) ∧
    (∀ h, s.handle = some h → handleOfInit (sinceInit s.trace) = some h ∧
      4 ≤ (latchedView h [] (sinceInit s.trace)).length) ∧
    ∀ e, s.trace.getLast? = some e → e.isCfg = false

/-- No pin is held by the handles of two instances (R191). -/
def Fleet.pinsApart (f : Fleet) : Prop :=
  f.members.Pairwise (fun a b => ∀ p ∈ a.heldPins, p ∉ b.heldPins)

/-- What an instance still has to emit acts on pins of its own handle only (R191). -/
def Running.keepsToItsPins (r : Running) : Prop :=
  ∀ e, Micro.emit e ∈ r.todo → ∀ p, e.pin = some p → p ∈ r.heldPins

/-- The invariant of a fleet: no two handles share a pin, every operation in progress keeps to its handle's
pins, and what each instance has emitted is its share of the common trace. -/
def Fleet.Inv (f : Fleet) : Prop :=
  f.pinsApart ∧ (∀ r ∈ f.members, r.keepsToItsPins) ∧
    ∀ (k : Nat) (r : Running), f.members[k]? = some r → f.traceOf k = r.state.trace

end Sys2Proof.Machine
end

