-- ==== Sys2Proof/Certificates/Slice0/Obligations.lean ====
section
/-! DEFINITION. The statements for the provers, from the numbered rules of spec/. Each holds for every configuration, every
failure model of the providers and every state, but for what its hypotheses ask. -/

open Sys2Proof Sys2Proof.Machine

/-! ## Reset, step, host command stream -/

/-- R41, R200: the state after reset, and that the block then waits. The configuration values are the spec's
defaults (R8, R9, R84), `stream`, `foreignPins` and `ground` empty the model's choice (logs 9, 3, 6). -/
def Obligations.ResetStateAndWaiting : Prop :=
  State.reset.seq = .unpowered ∧ State.reset.handle = none ∧ State.reset.busy = false ∧
    (∀ p, (State.reset.pins.get p).dir = .unknown ∧ (State.reset.pins.get p).level = .unknown) ∧
    State.reset.trace = [] ∧ State.reset.refused = false ∧ State.reset.providerFault = false ∧
    State.reset.config = ⟨2, 16, 50, 5, 5, 1, 2, 1, 1, 100, 0x28, 0x0C, 0x01, 0x80, 0x06, 0x40⟩ ∧
    step State.reset = .next State.reset

/-- The invariant holds at reset. -/
def Obligations.ResetMeetsTheInvariant : Prop := State.reset.Inv

/-- R110, R170, U10: a step of an illegal configuration is refused; of a legal one it answers a next state,
never a fault and never a refusal. -/
def Obligations.StepAnswersNextExactlyWhenConfigurationLegal : Prop :=
  ∀ s : State, (¬ s.config.legal → step s = .refused .illegalConfiguration) ∧
    (s.config.legal → ∃ t, step s = .next t)

/-- R63, R73: a step runs the operation decoded from the stream, with its bytes consumed. -/
def Obligations.StepRunsTheDecodedOperation : Prop :=
  ∀ (s : State) (i : Instr) (rest : List Byte), s.config.legal → s.busy = false →
    decode s.stream = .instr i rest → step s = exec i { s with stream := rest }

/-- R63, R72, R73, D22: whatever follows it in the stream, one whole well-formed host operation is consumed
and run. -/
def Obligations.StepConsumesOneWholeOperation : Prop :=
  ∀ (s : State) (i : Instr) (rest : List Byte), s.config.legal → s.busy = false →
    i.layer = .host → i.wellFormed = true → s.stream = encode i ++ rest →
      step s = exec i { s with stream := rest }

/-- R200, R178, R180: with an empty stream the block waits; while busy, which after a step is only so after a
provider failure, nothing is accepted. -/
def Obligations.StepWaitsWhenIdleOrBusy : Prop :=
  ∀ s : State, s.config.legal → s.stream = [] ∨ s.busy = true → step s = .next s

/-- R90, R179: a reserved opcode byte, whatever follows, and every proper beginning of an operation's bytes
are refused as malformed: only the marks and the stream change. What is left of the stream is the
model's choice (log 7), as is that the run goes on (log 5). -/
def Obligations.MalformedRequestIsRefused : Prop :=
  ∀ s : State, s.config.legal → s.busy = false →
    ((∃ b rest, s.stream = b :: rest ∧ (b.toNat = 0 ∨ 7 ≤ b.toNat)) ∨
      (∃ i n, i.layer = .host ∧ i.wellFormed = true ∧ 0 < n ∧ n < (encode i).length ∧
        s.stream = (encode i).take n)) →
    step s = .next { s with
      stream := streamAfterMalformed s.stream, refused := true, ground := some .malformed }

/-! ## Encodings -/

/-- R72, R73: every well-formed host operation, with every operand, decodes from its own encoding, whatever
follows it. -/
def Obligations.HostOperationsDecodeFromTheirEncoding : Prop :=
  ∀ (i : Instr) (rest : List Byte), i.layer = .host → i.wellFormed = true →
    decode (encode i ++ rest) = .instr i rest

/-- R71, R72, R73: what the host stream decodes to is a well-formed host operation, never a primitive or a
bus word, and the bytes are its encoding. -/
def Obligations.DecodedBytesAreTheEncoding : Prop :=
  ∀ (bytes rest : List Byte) (i : Instr), decode bytes = .instr i rest →
    bytes = encode i ++ rest ∧ i.layer = .host ∧ i.wellFormed = true

/-- R83: a bus word decodes to a row of the table exactly if it is that row's encoding. -/
def Obligations.BusWordsDecodeAndEncodeAgree : Prop :=
  ∀ (w : BusWord) (i : Instr), decodeBus w = some i ↔ encodeBus i = some w

/-- A few words written out from R72, R81 and R83. -/
def Obligations.WordsOfTheSpecDecode : Prop :=
  decode [0x01, 2, 3, 4, 5, 6, 7] = .instr (.init 2 3 4 5 6 7) [] ∧
    decode [0x03, 0x01, 0x05, 0x02] = .instr (.setCursor 1 5) [0x02] ∧
    decode [0x04, 0x02, 0x48, 0x69] = .instr (.print [0x48, 0x69]) [] ∧
    decode [0x07, 0x00] = .reservedOpcode 0x07 ∧
    decodeBus ⟨false, 0b00101000⟩ = some (.functionSet false true false 0) ∧
    decodeBus ⟨false, 0b11000101⟩ = some (.setDdramAddr 0x45) ∧
    decodeNibble ⟨false, 0b0011⟩ = some .resetNibble

/-! ## The Protocol Engine -/

/-- R100. The next state differs from the old one in the trace, which grows by the six events, and in the
pin shadow those events give; there is no host encoding. -/
def Obligations.PulseEnableEmitsLowHighLow : Prop :=
  encode .pulseEnable = [] ∧ ∀ (s : State) (h : Handle), s.engineOn h →
    let es : List Event := [.lo h.en, .dus s.config.tEPre, .hi h.en, .dus s.config.tEWidth,
      .lo h.en, .dus s.config.tEPost]
    s.quiet es → exec .pulseEnable s = .next { s with
      trace := s.trace ++ es, pins := s.pins.applyAll es }

/-- R45, R102: bit 0 on D4 to bit 3 on D7, every pin written, then the pulse. -/
def Obligations.TransmitNibbleDrivesD4ToD7ThenPulses : Prop :=
  ∀ (s : State) (h : Handle) (v : Nibble), s.engineOn h →
    let bit : PinId → Nat → Event := fun p k => if v.getLsbD k then .hi p else .lo p
    let es : List Event := [bit h.d4 0, bit h.d5 1, bit h.d6 2, bit h.d7 3,
      .lo h.en, .dus s.config.tEPre, .hi h.en, .dus s.config.tEWidth, .lo h.en, .dus s.config.tEPost]
    s.quiet es → exec (.transmitNibble v) s = .next { s with
      trace := s.trace ++ es, pins := s.pins.applyAll es }

/-- R46, R104: RS, then the nibble of bits 7 to 4, then the nibble of bits 3 to 0. -/
def Obligations.SendByteSetsRsThenSendsHighNibbleFirst : Prop :=
  ∀ (s : State) (h : Handle) (value : Byte) (isData : Bool), s.engineOn h →
    let nibble : Nat → List Event := fun k => transmitNibble s.config h (value.extractLsb' k 4)
    let es : List Event := (if isData then .hi h.rs else .lo h.rs) :: (nibble 4 ++ nibble 0)
    s.quiet es → exec (.sendByte value isData) s = .next { s with
      trace := s.trace ++ es, pins := s.pins.applyAll es }

/-- R106, R108: SEND_COMMAND and SEND_DATA are SEND_BYTE with `is_data` fixed, in every state, with no host
encoding of their own; they complete, and RS ends low and high. -/
def Obligations.SendCommandAndSendDataFixIsData : Prop :=
  ∀ (s : State) (value : Byte),
    encode (.sendCommand value) = [] ∧ encode (.sendData value) = [] ∧
    exec (.sendCommand value) s = exec (.sendByte value false) s ∧
    exec (.sendData value) s = exec (.sendByte value true) s ∧
    ∀ h, s.engineOn h →
      (s.quiet (sendByte s.config h value false) →
        exec (.sendCommand value) s = .next (s.emitted (sendByte s.config h value false))) ∧
      (s.quiet (sendByte s.config h value true) →
        exec (.sendData value) s = .next (s.emitted (sendByte s.config h value true))) ∧
      (h.distinct → s.pins.wf →
        ((s.emitted (sendByte s.config h value false)).pins.get h.rs).level = .low ∧
        ((s.emitted (sendByte s.config h value true)).pins.get h.rs).level = .high)

/-- R81, R125, R126: the single-nibble words are one TRANSMIT_NIBBLE, of 0x3 and of 0x2, with RS as it
stands. -/
def Obligations.SingleNibbleWordsAreOneNibble : Prop :=
  ∀ (s : State) (h : Handle), s.engineOn h →
    (s.quiet (transmitNibble s.config h 0x3) →
      exec .resetNibble s = .next (s.emitted (transmitNibble s.config h 0x3))) ∧
    (s.quiet (transmitNibble s.config h 0x2) →
      exec .mode4Nibble s = .next (s.emitted (transmitNibble s.config h 0x2)))

/-- R80, R83: each 9-bit bus word goes out as one SEND_BYTE of its `db` with its `rs`. The numbers behind the
patterns are the spec's general knowledge (log 15). -/
def Obligations.BusWordsGoOutAsOneSendByte : Prop :=
  ∀ (s : State) (h : Handle), s.engineOn h →
    let goesOutAs : Instr → Bool → Byte → Prop := fun i rs db =>
      s.quiet (sendByte s.config h db rs) →
        exec i s = .next (s.emitted (sendByte s.config h db rs))
    (∀ l n f x, goesOutAs (.functionSet l n f x) false
      (BitVec.ofNat 8 (0x20 + 0x10 * l.toNat + 0x08 * n.toNat + 0x04 * f.toNat + x.toNat))) ∧
    (∀ d c b, goesOutAs (.displayControl d c b) false
      (BitVec.ofNat 8 (0x08 + 0x04 * d.toNat + 0x02 * c.toNat + b.toNat))) ∧
    goesOutAs .clearDisplay false 0x01 ∧
    (∀ i sh, goesOutAs (.entryModeSet i sh) false
      (BitVec.ofNat 8 (0x04 + 0x02 * i.toNat + sh.toNat))) ∧
    (∀ a, goesOutAs (.setDdramAddr a) false (BitVec.ofNat 8 (0x80 + a.toNat))) ∧
    (∀ a, goesOutAs (.setCgramAddr a) false (BitVec.ofNat 8 (0x40 + a.toNat))) ∧
    (∀ d, goesOutAs (.writeData d) true d)

/-- A primitive or a bus word with no handle is refused: the model's choice (log 11). -/
def Obligations.EngineWithoutHandleIsRefused : Prop :=
  ∀ (s : State) (i : Instr), i.layer ≠ .host → s.handle = none →
    exec i s = .next { s with refused := true, ground := some .noHandle }

/-! ## INIT -/

/-- R120, R122: an accepted INIT writes the handle, emits its 158 events in order and ends in `Ready`;
nothing else changes. -/
def Obligations.InitRunsTheWholeHandshake : Prop :=
  ∀ (s : State) (rs en d4 d5 d6 d7 : PinId),
    let h : Handle := ⟨rs, en, d4, d5, d6, d7⟩
    let c := s.config
    let es : List Event :=
      [.cfg rs, .cfg en, .cfg d4, .cfg d5, .cfg d6, .cfg d7, .lo rs, .lo en] ++
      [.dms c.tPowerupMs] ++
      transmitNibble c h 0x3 ++ [.dms c.tReset1Ms] ++ transmitNibble c h 0x3 ++ [.dms c.tReset2Ms] ++
      transmitNibble c h 0x3 ++ [.dms c.tReset3Ms] ++
      transmitNibble c h 0x2 ++
      sendCommand c h c.byteFunctionSet ++
      sendCommand c h c.byteDisplayControl ++
      sendCommand c h c.byteClear ++ [.dms c.tClearMs] ++ sendCommand c h c.byteDdramBase ++
      sendCommand c h c.byteEntryMode
    s.acceptsInit h → s.quiet es →
      es.length = 158 ∧ exec (.init rs en d4 d5 d6 d7) s = .next { s with
        handle := some h, seq := .ready, trace := s.trace ++ es, pins := s.pins.applyAll es }

/-- R131: the pins as INIT leaves them (the levels rest on the entry-mode byte 0x06 of R84, log 15). -/
def Obligations.InitLeavesThePinsIdle : Prop :=
  ∀ (s : State) (rs en d4 d5 d6 d7 : PinId), s.pins.wf → s.config.byteEntryMode = 0x06 →
    s.acceptsInit ⟨rs, en, d4, d5, d6, d7⟩ →
    s.quiet (initEvents s.config ⟨rs, en, d4, d5, d6, d7⟩) →
    ∃ t, exec (.init rs en d4 d5 d6 d7) s = .next t ∧ t.seq = .ready ∧ t.busy = false ∧
      t.handle = some ⟨rs, en, d4, d5, d6, d7⟩ ∧
      t.pins.get rs = ⟨.output, .low⟩ ∧ t.pins.get en = ⟨.output, .low⟩ ∧
      t.pins.get d4 = ⟨.output, .low⟩ ∧ t.pins.get d5 = ⟨.output, .high⟩ ∧
      t.pins.get d6 = ⟨.output, .high⟩ ∧ t.pins.get d7 = ⟨.output, .low⟩

/-- R132, R82: the latched view of INIT, from any pins on which its E is not already high (log 16), and the
words it cuts into. On a trace that cuts into messages and does not end within a run of `CFG`, an INIT begins
the cutting anew and adds just those words, whatever its E was (the model's choice, log 21). The numbers rest
on the bytes of R84 (log 15). -/
def Obligations.InitLatchesFourteenTransfers : Prop :=
  ∀ (c : Config) (h : Handle) (ps : Pins), standardBytes c → h.distinct → ps.wf →
    let words : List Message :=
      [.single ⟨false, 0x3⟩, .single ⟨false, 0x3⟩, .single ⟨false, 0x3⟩, .single ⟨false, 0x2⟩,
        .word ⟨false, 0x28⟩, .word ⟨false, 0x0C⟩, .word ⟨false, 0x01⟩, .word ⟨false, 0x80⟩,
        .word ⟨false, 0x06⟩]
    ((ps.get h.en).level ≠ .high →
      latchedView h ps (initEvents c h) =
        [0x3, 0x3, 0x3, 0x2, 0x2, 0x8, 0x0, 0xC, 0x0, 0x1, 0x8, 0x0, 0x0, 0x6].map
          (fun n : Nibble => some (false, n)) ∧
      cutInit (latchedView h ps (initEvents c h)) = some words) ∧
    ∀ (trace : List Event) (ms : List Message), messages trace = some ms →
      (∀ e, trace.getLast? = some e → e.isCfg = false) →
      messages (trace ++ initEvents c h) = some (ms ++ words)

/-! ## The Display API -/

/-- R140: CLEAR (and, with it, INIT step 7). -/
def Obligations.ClearSendsClearWaitsAndHomes : Prop :=
  ∀ (s : State) (h : Handle), s.readyOn h →
    let es : List Event := sendCommand s.config h s.config.byteClear ++ [.dms s.config.tClearMs] ++
      sendCommand s.config h s.config.byteDdramBase
    s.quiet es → es.length = 43 ∧ exec .clear s = .next { s with
      trace := s.trace ++ es, pins := s.pins.applyAll es }

/-- R144: SET_CURSOR sends one command, the DDRAM base with the address of the saturated operands. -/
def Obligations.SetCursorSendsTheSaturatedAddress : Prop :=
  ∀ (s : State) (h : Handle) (row column : Byte), s.readyOn h →
    let r := min row.toNat (s.config.rowCount - 1)
    let c := min column.toNat (s.config.columnCount - 1)
    let address := c + (if r = 0 then 0x00 else 0x40)
    let es : List Event :=
      sendCommand s.config h (s.config.byteDdramBase ||| BitVec.ofNat 8 address)
    s.quiet es → es.length = 21 ∧ exec (.setCursor row column) s = .next { s with
      trace := s.trace ++ es, pins := s.pins.applyAll es }

/-- R145: saturation, not modulo, of each operand, in every state. -/
def Obligations.SetCursorSaturates : Prop :=
  ∀ (s : State) (row column : Byte),
    (s.config.rowCount ≤ row.toNat → exec (.setCursor row column) s =
      exec (.setCursor (BitVec.ofNat 8 (s.config.rowCount - 1)) column) s) ∧
    (s.config.columnCount ≤ column.toNat → exec (.setCursor row column) s =
      exec (.setCursor row (BitVec.ofNat 8 (s.config.columnCount - 1))) s)

/-- R146, R86: on operands within the geometry the address is `column`, plus 0x40 in row 1, and the command
byte is 0x80 plus it (0x80 is the spec's general knowledge, log 15). -/
def Obligations.SetCursorAddressOfEachCell : Prop :=
  ∀ (s : State) (h : Handle) (row column : Byte), s.readyOn h → s.config.legal →
    s.config.byteDdramBase = 0x80 → row.toNat < s.config.rowCount →
    column.toNat < s.config.columnCount →
    let es := sendCommand s.config h (BitVec.ofNat 8 (0x80 + (column.toNat + 0x40 * row.toNat)))
    s.quiet es → exec (.setCursor row column) s = .next (s.emitted es)

/-- R150: PRINT's encoding, and that it sends each character in sequence, of any number; none at all changes
nothing; RS ends high if there was any. -/
def Obligations.PrintSendsEachCharacter : Prop :=
  ∀ (s : State) (h : Handle) (text : List Byte),
    encode (.print text) = 0x04 :: BitVec.ofNat 8 text.length :: text ∧ (s.readyOn h →
    let es : List Event := (text.map (fun c => sendData s.config h c)).flatten
    s.quiet es → es.length = 21 * text.length ∧ exec (.print text) s = .next { s with
        trace := s.trace ++ es, pins := s.pins.applyAll es } ∧
      (h.distinct → s.pins.wf → text ≠ [] → ((s.pins.applyAll es).get h.rs).level = .high))

/-- R96, R150: a text printed in two pieces is the text printed at once. -/
def Obligations.PrintOfTwoPiecesIsPrintOfTheWhole : Prop :=
  ∀ (s t : State) (h : Handle) (a b : List Byte), s.readyOn h →
    s.quiet (printEvents a s.config h) → s.quiet (printEvents b s.config h) →
    exec (.print a) s = .next t → exec (.print b) t = exec (.print (a ++ b)) s

/-- R152: PRINT_GLYPH's encoding, and that it emits the same as PRINT of the one code, in every state, and
completes, RS high; the code is not masked. -/
def Obligations.PrintGlyphIsPrintOfOneCode : Prop :=
  ∀ (s : State) (code : Byte), encode (.printGlyph code) = [0x05, code] ∧
    exec (.printGlyph code) s = exec (.print [code]) s ∧
    ∀ h, s.readyOn h → s.quiet (sendData s.config h code) →
      exec (.printGlyph code) s = .next (s.emitted (sendData s.config h code)) ∧
      (h.distinct → s.pins.wf → ((s.emitted (sendData s.config h code)).pins.get h.rs).level = .high)

/-- R154, R156, R157, R158: the slot's address, the eight rows unchanged and in order, the closing address
command. -/
def Obligations.CreateGlyphSendsSlotRowsAndHome : Prop :=
  ∀ (s : State) (h : Handle) (index : Byte) (b : Bitmap), s.readyOn h →
    let c := s.config
    let es : List Event := sendCommand c h (c.byteCgramBase ||| ((index &&& 7) <<< 3)) ++
      sendData c h b.b0 ++ sendData c h b.b1 ++ sendData c h b.b2 ++ sendData c h b.b3 ++
      sendData c h b.b4 ++ sendData c h b.b5 ++ sendData c h b.b6 ++ sendData c h b.b7 ++
      sendCommand c h c.byteDdramBase
    s.quiet es → es.length = 210 ∧ exec (.createGlyph index b) s = .next { s with
      trace := s.trace ++ es, pins := s.pins.applyAll es }

/-- R155: only the low three bits of the index count, in every state. -/
def Obligations.CreateGlyphMasksTheIndex : Prop :=
  ∀ (s : State) (i j : Byte) (b : Bitmap), i.toNat % 8 = j.toNat % 8 →
    exec (.createGlyph i b) s = exec (.createGlyph j b) s

/-- R131, R150, R152, R154, R160: how RS, E and the data pins stand after a completed Display API operation:
E low, and RS high exactly if the last byte sent was data. -/
def Obligations.RsAndEAfterTheDisplayApi : Prop :=
  ∀ (s t : State) (h : Handle) (i : Instr), s.readyOn h → h.distinct → s.pins.wf → exec i s = .next t →
    t.providerFault = false →
    ((i = .clear ∨ (∃ r c, i = .setCursor r c) ∨ (∃ x b, i = .createGlyph x b)) →
      (t.pins.get h.en).level = .low ∧ (t.pins.get h.rs).level = .low) ∧
    (((∃ code, i = .printGlyph code) ∨ (∃ c cs, i = .print (c :: cs))) →
      (t.pins.get h.en).level = .low ∧ (t.pins.get h.rs).level = .high)

/-! ## Refusals (R173 to R179, R191) -/

/-- R173, R175, R178: whatever else is wrong with it, a host operation issued while busy is refused as busy;
only the marks change. DEDUCED (log 8): R178 says that such an issue does not exist in a model with one host
agent, and is refused where several share the port; `step` waits while busy, and `exec`, which can be asked,
refuses. That the run goes on after a refusal is the model's choice (log 5). -/
def Obligations.HostOperationWhileBusyIsRefused : Prop :=
  ∀ (s : State) (i : Instr), i.layer = .host → s.busy = true →
    exec i s = .next { s with refused := true, ground := some .busy }

/-- R175, R176: a Display API operation while `seq` is not `Ready` is refused; only the marks change. -/
def Obligations.DisplayApiBeforeReadyIsRefused : Prop :=
  ∀ (s : State) (i : Instr), i.layer = .host → (∀ rs en d4 d5 d6 d7, i ≠ .init rs en d4 d5 d6 d7) →
    s.busy = false → s.seq ≠ .ready →
    exec i s = .next { s with refused := true, ground := some .notReady }

/-- R175, R177: INIT whose six pins are not pairwise distinct is refused; only the marks change. -/
def Obligations.InitWithEqualPinsIsRefused : Prop :=
  ∀ (s : State) (rs en d4 d5 d6 d7 : PinId), s.busy = false → ¬ [rs, en, d4, d5, d6, d7].Nodup →
    exec (.init rs en d4 d5 d6 d7) s = .next { s with refused := true, ground := some .pinsNotDistinct }

/-- R175, R191: INIT that names a pin another instance's handle holds is refused; only the marks change.
The place of this ground after R177's is the model's choice (log 3). -/
def Obligations.InitWithHeldPinIsRefused : Prop :=
  ∀ (s : State) (rs en d4 d5 d6 d7 : PinId), s.busy = false → [rs, en, d4, d5, d6, d7].Nodup →
    (∃ p ∈ [rs, en, d4, d5, d6, d7], p ∈ s.foreignPins) →
    exec (.init rs en d4 d5 d6 d7) s = .next { s with refused := true, ground := some .pinHeld }

/-! ## Provider failures (R180, R183) -/

/-- R180: a Display API operation stops before the first event on which a provider fails. `events` is the
list the operation's own rule gives it. -/
def Obligations.DisplayApiStopsAtAProviderFailure : Prop :=
  ∀ (s : State) (h : Handle) (i : Instr) (events pre post : List Event) (e : Event), s.readyOn h →
    (i = .clear ∧ events = clearEvents s.config h ∨
      (∃ r c, i = .setCursor r c ∧ events = setCursorEvents r c s.config h) ∨
      (∃ text, i = .print text ∧ events = printEvents text s.config h) ∨
      (∃ code, i = .printGlyph code ∧ events = printGlyphEvents code s.config h) ∨
      (∃ x b, i = .createGlyph x b ∧ events = createGlyphEvents x b s.config h)) →
    events = pre ++ e :: post → s.quiet pre → s.failing.contains e = true →
    exec i s = .next { s with
      trace := s.trace ++ pre, pins := s.pins.applyAll pre, busy := true, providerFault := true }

/-- R180, R121: an INIT stops before the first event on which a provider fails, in whichever of its eight
transitions that is, and `seq` keeps the value it had. That the handle stays written follows R122
(DEDUCED, log 14). -/
def Obligations.InitStopsAtAProviderFailure : Prop :=
  ∀ (s : State) (h : Handle) (before after : List (List Event × Seq)) (pre post : List Event) (e : Event)
    (q : Seq), s.acceptsInit h → initPhases s.config h = before ++ (pre ++ e :: post, q) :: after →
    s.quiet (before.flatMap Prod.fst ++ pre) → s.failing.contains e = true →
    exec (.init h.rs h.en h.d4 h.d5 h.d6 h.d7) s = .next { s with
      handle := some h
      seq := (before.getLast?.map Prod.snd).getD .unpowered
      trace := s.trace ++ (before.flatMap Prod.fst ++ pre)
      pins := s.pins.applyAll (before.flatMap Prod.fst ++ pre)
      busy := true
      providerFault := true }

/-- R180: a primitive or a bus word emits a beginning of its events, and stops before the first on which a
provider fails; `events` is what it emits where none fails. -/
def Obligations.EngineStopsAtAProviderFailure : Prop :=
  ∀ (s : State) (h : Handle) (i : Instr) (pre post : List Event) (e : Event), i.layer ≠ .host →
    s.engineOn h → exec i { s with failing := [] } =
      .next (State.emitted { s with failing := [] } (pre ++ e :: post)) →
    s.quiet pre → s.failing.contains e = true →
    exec i s = .next { s with
      trace := s.trace ++ pre, pins := s.pins.applyAll pre, busy := true, providerFault := true }

/-! ## Pins and views -/

/-- R28: what each event does to each pin of the shadow. -/
def Obligations.ShadowFollowsTheEvents : Prop :=
  ∀ (ps : Pins) (p q : PinId) (n : Nat), ps.wf →
    ((ps.apply (.cfg p)).get q = if q = p then ⟨.output, (ps.get p).level⟩ else ps.get q) ∧
    ((ps.apply (.hi p)).get q = if q = p then ⟨(ps.get p).dir, .high⟩ else ps.get q) ∧
    ((ps.apply (.lo p)).get q = if q = p then ⟨(ps.get p).dir, .low⟩ else ps.get q) ∧
    ps.apply (.dms n) = ps ∧ ps.apply (.dus n) = ps

/-- Two shadows in canonical form that read alike are equal. -/
def Obligations.CanonicalShadowsThatReadAlikeAreEqual : Prop :=
  ∀ a b : Pins, a.wf → b.wf → (∀ p, a.get p = b.get p) → a = b

/-- R46, R50, R80, R104: SEND_BYTE latches `(is_data, value[7:4])` then `(is_data, value[3:0])`, whatever the
pins were, as long as E was not high. -/
def Obligations.SendByteLatchesHighThenLow : Prop :=
  ∀ (c : Config) (h : Handle) (ps : Pins) (value : Byte) (isData : Bool), h.distinct → ps.wf →
    (ps.get h.en).level ≠ .high →
    latchedView h ps (sendByte c h value isData) =
      [some (isData, value.extractLsb' 4 4), some (isData, value.extractLsb' 0 4)]

/-- R51, R140, R144, R150, R152, R154, R160: what each Display API operation sends, as bus words; the
transfers pair up. -/
def Obligations.DisplayApiSendsTheseBusWords : Prop :=
  ∀ (c : Config) (h : Handle) (ps : Pins), h.distinct → ps.wf → (ps.get h.en).level ≠ .high →
    pairUp (latchedView h ps (clearEvents c h)) =
      some [.word ⟨false, c.byteClear⟩, .word ⟨false, c.byteDdramBase⟩] ∧
    (∀ r x, pairUp (latchedView h ps (setCursorEvents r x c h)) =
      some [.word ⟨false, ddramByte c (ddramAddress c r x)⟩]) ∧
    (∀ text, pairUp (latchedView h ps (printEvents text c h)) =
      some (text.map (fun d => .word ⟨true, d⟩))) ∧
    (∀ code, pairUp (latchedView h ps (printGlyphEvents code c h)) = some [.word ⟨true, code⟩]) ∧
    (∀ index b, pairUp (latchedView h ps (createGlyphEvents index b c h)) =
      some (.word ⟨false, cgramByte c index⟩ :: b.rows.map (fun d => .word ⟨true, d⟩) ++
        [.word ⟨false, c.byteDdramBase⟩]))

/-- R158, R210, R37, R38: after INIT, CLEAR and CREATE_GLYPH the last address command the display has been
told is DDRAM address 0, with no data since, whatever it had been told before. -/
def Obligations.LastAddressToldIsHome : Prop :=
  ∀ (c : Config) (h : Handle) (ps : Pins) (earlier ms : List Message), standardBytes c → h.distinct →
    ps.wf → (ps.get h.en).level ≠ .high →
    (cutInit (latchedView h ps (initEvents c h)) = some ms ∨
      pairUp (latchedView h ps (clearEvents c h)) = some ms ∨
      ∃ index b, pairUp (latchedView h ps (createGlyphEvents index b c h)) = some ms) →
    (told (earlier ++ ms)).address = some (.ddram, 0) ∧ (told (earlier ++ ms)).data = []

/-- R29: no event of a host operation acts on RS or a data pin at a moment when E is high. -/
def Obligations.DataPinsAreStableWhileEnableIsHigh : Prop :=
  ∀ (s t : State) (i : Instr) (h : Handle), i.layer = .host → exec i s = .next t →
    t.handle = some h → h.distinct → s.pins.wf → (s.pins.get h.en).level ≠ .high →
    ∃ es, t.trace = s.trace ++ es ∧ stableWhileHigh h s.pins es = true

/-- R190: the latched view reads only the instance's own six pins: any other events among its own, in any
order, leave it as it is. So where others' events act on none of those pins, however all are interleaved, the
view of the common trace is that of the instance's own events. -/
def Obligations.LatchedViewIgnoresOtherPins : Prop :=
  ∀ (h : Handle) (ps : Pins), ps.wf →
    (∀ es : List Event, latchedView h ps es =
      latchedView h ps (es.filter (fun e => match e.pin with
        | some p => h.pins.contains p
        | none => false))) ∧
    ∀ (common : List (Nat × Event)) (k : Nat),
      (∀ x ∈ common, x.1 ≠ k → ∀ p ∈ h.pins, x.2.pin ≠ some p) →
      latchedView h ps (common.map Prod.snd) =
        latchedView h ps ((common.filter (fun x => x.1 = k)).map Prod.snd)

/-! ## Rules of the whole machine -/

/-- R22, R23, R25, R27, R28, R29, R30, R42: every step keeps the invariant, from every state that meets it. -/
def Obligations.StepKeepsTheInvariant : Prop :=
  ∀ s t : State, s.Inv → step s = .next t → t.Inv

/-- R51, R82, R91: from every state that meets the invariant, on the standard command bytes (log 15), a step
keeps the framing: the whole trace, cut anew at every INIT, cuts into messages, all of them emittable. -/
def Obligations.StepKeepsTheFraming : Prop :=
  ∀ s t : State, s.Inv → standardBytes s.config → s.framed → step s = .next t → t.framed

/-- R30, R60: the trace only grows, and the shadow grows with it. -/
def Obligations.StepOnlyAppendsToTheTrace : Prop :=
  ∀ s t : State, step s = .next t →
    ∃ es, t.trace = s.trace ++ es ∧ t.pins = s.pins.applyAll es

/-- R32: neither mark is ever cleared by a later step. -/
def Obligations.MarksAreSticky : Prop :=
  ∀ s t : State, step s = .next t →
    (s.refused = true → t.refused = true) ∧ (s.providerFault = true → t.providerFault = true)

/-- R21, R24, R160: no operation but INIT writes the handle or `seq`. -/
def Obligations.OnlyInitWritesHandleAndSeq : Prop :=
  ∀ (s t : State) (i : Instr), (∀ rs en d4 d5 d6 d7, i ≠ .init rs en d4 d5 d6 d7) →
    exec i s = .next t → t.handle = s.handle ∧ t.seq = s.seq

/-- R35, R41: a step writes neither the configuration, nor the failure model, nor what others hold. -/
def Obligations.StepKeepsConfigurationAndEnvironment : Prop :=
  ∀ s t : State, step s = .next t →
    t.config = s.config ∧ t.failing = s.failing ∧ t.foreignPins = s.foreignPins

/-- R110, R186, R204: every delay any operation asks for is one of the eight parameters, through its own
provider call; and no operation but INIT emits a `CFG` (R123). -/
def Obligations.DelaysAreTheParametersAndCfgIsInits : Prop :=
  ∀ (s t : State) (i : Instr), exec i s = .next t →
    ∃ es, t.trace = s.trace ++ es ∧ (∀ e ∈ es, delayAllowed s.config e = true) ∧
      ((∀ rs en d4 d5 d6 d7, i ≠ .init rs en d4 d5 d6 d7) → ∀ e ∈ es, e.isCfg = false)

/-- R133, R211, R206: a pin that is not of the handle an operation leaves behind stays as it was; after a
second INIT the first set of pins among them. -/
def Obligations.OtherPinsStayAsTheyWere : Prop :=
  ∀ (s t : State) (i : Instr) (p : PinId), s.pins.wf → exec i s = .next t →
    (∀ h, t.handle = some h → p ∉ h.pins) → t.pins.get p = s.pins.get p

/-! ## Counts and least durations -/

/-- R111, R120, R160: how many events each operation emits. -/
def Obligations.EventCounts : Prop :=
  ∀ (c : Config) (h : Handle),
    (pulseEnable c h).length = 6 ∧ (∀ v, (transmitNibble c h v).length = 10) ∧
    (∀ v d, (sendByte c h v d).length = 21) ∧ (initEvents c h).length = 158 ∧
    (clearEvents c h).length = 43 ∧ (∀ r x, (setCursorEvents r x c h).length = 21) ∧
    (∀ text, (printEvents text c h).length = 21 * text.length) ∧
    (∀ code, (printGlyphEvents code c h).length = 21) ∧
    (∀ index b, (createGlyphEvents index b c h).length = 210)

/-- R215: the least duration of each operation, in microseconds. -/
def Obligations.LeastDurations : Prop :=
  ∀ (c : Config) (h : Handle),
    let P := c.tEPre + c.tEWidth + c.tEPost
    leastMicros (pulseEnable c h) = P ∧ (∀ v, leastMicros (transmitNibble c h v) = P) ∧
    (∀ v d, leastMicros (sendByte c h v d) = 2 * P) ∧
    leastMicros (initEvents c h) =
      1000 * (c.tPowerupMs + c.tReset1Ms + c.tReset2Ms + c.tReset3Ms + c.tClearMs) + 14 * P ∧
    leastMicros (clearEvents c h) = 1000 * c.tClearMs + 4 * P ∧
    (∀ r x, leastMicros (setCursorEvents r x c h) = 2 * P) ∧
    (∀ text, leastMicros (printEvents text c h) = 2 * text.length * P) ∧
    (∀ code, leastMicros (printGlyphEvents code c h) = 2 * P) ∧
    (∀ index b, leastMicros (createGlyphEvents index b c h) = 20 * P)

/-! ## Pin identifiers and events -/

/-- R10, R54: pin identifiers are opaque. The operations are defined over identifiers of any type with decidable
equality (and any order to list the shadow by); `exec` is that definition at the bytes of the host command
stream, and giving every pin another name, of whatever type, changes nothing but the names. -/
def Obligations.PinIdentifiersAreOpaque : Prop :=
  ∀ (P : Type) [DecidableEq P] [LT P] [DecidableLT P] (name : PinId → P) (i : Instr) (s : State),
    (∀ p q, name p = name q → p = q) →
    let t := perform id i s
    let t' := perform name i (s.rename name)
    exec i s = .next t ∧ { t' with pins := (t.rename name).pins } = t.rename name ∧
      ∀ p, t'.pins.get (name p) = t.pins.get p

/-- R26: an operation taken event by event comes to the same state as the operation taken as one step. -/
def Obligations.EventByEventIsTheOperation : Prop :=
  ∀ (i : Instr) (s : State), ∃ n,
    ((issue id i s).ticks n).todo = [] ∧ exec i s = .next ((issue id i s).ticks n).state

/-! ## Several instances -/

/-- R190: a step of one instance leaves every other one as it was. -/
def Obligations.FleetStepLeavesTheOtherInstances : Prop :=
  ∀ (f g : Fleet) (k j : Nat), f.step k = .next g → j ≠ k → g.members[j]? = f.members[j]?

/-- R191: handles that share no pin stay so, whichever instance moves, whatever its host issues. -/
def Obligations.FleetStepKeepsPinsApart : Prop :=
  ∀ (f g : Fleet) (k : Nat), f.pinsApart → f.step k = .next g → g.pinsApart

/-- R190, R191: events of several instances interleave one by one, and keep the fleet's invariant: pins apart,
each operation on its own handle's pins, each instance's trace its share of the common one. A step adds at
most one event, which acts on no pin of another instance's handle. -/
def Obligations.FleetStepKeepsTheInvariant : Prop :=
  ∀ (f g : Fleet) (k : Nat), f.Inv → f.step k = .next g → g.Inv ∧
    ∃ es : List Event, es.length ≤ 1 ∧ g.trace = f.trace ++ es.map (fun e => (k, e)) ∧
      ∀ e ∈ es, ∀ (j : Nat) (r : Running), j ≠ k → f.members[j]? = some r →
        ∀ p ∈ r.heldPins, e.pin ≠ some p
end

