-- ==== Sys2Proof/Laws/Pins.lean ====
section
/-! SUPPORT. The pin shadow: a read after a write, other pins alone, the canonical form and what it is for. -/

namespace Sys2Proof.Machine

/-! ## Over identifiers of any type (R10) -/

section
variable {P : Type} [DecidableEq P] [LT P] [DecidableLT P]

@[simp] theorem Pins.applyAll_nil (ps : Pins P) : ps.applyAll [] = ps := rfl

@[simp] theorem Pins.applyAll_cons (ps : Pins P) (e : Event P) (es : List (Event P)) :
    ps.applyAll (e :: es) = (ps.apply e).applyAll es := rfl

theorem Pins.applyAll_append (ps : Pins P) (a b : List (Event P)) :
    ps.applyAll (a ++ b) = (ps.applyAll a).applyAll b := List.foldl_append

/-- Reading after a write of a value that is not `untouched`, whatever the list and the order of the
identifiers. -/
theorem Pins.get_set_of_touched (ps : Pins P) (p q : P) {v : Pin} (hv : v ≠ Pin.untouched) :
    (ps.set p v).get q = if q = p then v else ps.get q := by
  induction ps with
  | nil => simp only [Pins.set, Pins.list, if_neg hv, Pins.get]
  | cons a rest ih =>
    obtain ⟨r, w⟩ := a
    simp only [Pins.set, Pins.list, if_neg hv]
    split
    · next h => subst h; by_cases hq : q = p <;> simp [Pins.get, hq]
    · next h =>
      split
      · rfl
      · by_cases hq : q = r
        · subst hq; simp [Pins.get, Ne.symm h]
        · simp only [Pins.get, if_neg hq, ih]

/-- What an event does to each pin (R28), whatever the list and the order of the identifiers. -/
theorem Pins.get_apply (ps : Pins P) (e : Event P) (q : P) :
    (ps.apply e).get q =
      if e = .cfg q then ⟨.output, (ps.get q).level⟩
      else if e = .hi q then ⟨(ps.get q).dir, .high⟩
      else if e = .lo q then ⟨(ps.get q).dir, .low⟩
      else ps.get q := by
  cases e with
  | cfg p =>
    rw [Pins.apply, Pins.get_set_of_touched _ _ _ (by simp [Pin.untouched])]
    by_cases h : q = p <;> simp [h, eq_comm]
  | hi p =>
    rw [Pins.apply, Pins.get_set_of_touched _ _ _ (by simp [Pin.untouched])]
    by_cases h : q = p <;> simp [h, eq_comm]
  | lo p =>
    rw [Pins.apply, Pins.get_set_of_touched _ _ _ (by simp [Pin.untouched])]
    by_cases h : q = p <;> simp [h, eq_comm]
  | dms n => simp [Pins.apply]
  | dus n => simp [Pins.apply]

end

/-! ## The canonical form, over the identifiers of the host command stream -/

theorem Pins.get_list (p q : PinId) (v : Pin) (rest : Pins)
    (h : v = Pin.untouched → q = p → rest.get q = Pin.untouched) :
    (Pins.list p v rest).get q = if q = p then v else rest.get q := by
  unfold Pins.list
  by_cases hv : v = Pin.untouched
  · by_cases hq : q = p
    · rw [if_pos hv, if_pos hq, h hv hq, hv]
    · rw [if_pos hv, if_neg hq]
  · rw [if_neg hv, Pins.get]

/-- A pin below every listed one is untouched. -/
theorem Pins.get_of_below (ps : Pins) (q : PinId) (h : ∀ a ∈ ps, q < a.1) :
    ps.get q = Pin.untouched := by
  induction ps with
  | nil => rfl
  | cons a rest ih =>
    have hne : q ≠ a.1 := fun e => by simpa [e] using h a (by simp)
    simp only [Pins.get, if_neg hne]
    exact ih fun b hb => h b (by simp [hb])

theorem Pins.wf_nil : Pins.wf ([] : Pins) := by simp [Pins.wf]

theorem Pins.wf_tail {a : PinId × Pin} {ps : Pins} (h : Pins.wf (a :: ps)) : Pins.wf ps :=
  ⟨(List.pairwise_cons.1 h.1).2, fun b hb => h.2 b (by simp [hb])⟩

theorem Pins.head_below {a : PinId × Pin} {ps : Pins} (h : Pins.wf (a :: ps)) :
    ∀ b ∈ ps, a.1 < b.1 := (List.pairwise_cons.1 h.1).1

/-- Reading after a write: the pin written reads as written, every other pin as before. -/
theorem Pins.get_set {ps : Pins} (hw : ps.wf) (p q : PinId) (v : Pin) :
    (ps.set p v).get q = if q = p then v else ps.get q := by
  induction ps with
  | nil => exact Pins.get_list p q v [] (fun _ _ => rfl)
  | cons a rest ih =>
    obtain ⟨r, w⟩ := a
    have hb : ∀ b ∈ rest, r < b.1 := Pins.head_below hw
    simp only [Pins.set]
    split
    · next hpr =>
      subst hpr
      rw [Pins.get_list p q v rest fun _ hq => hq ▸ Pins.get_of_below rest p hb]
      by_cases hq : q = p <;> simp [hq, Pins.get]
    · next hpr =>
      split
      · next hlt =>
        refine Pins.get_list p q v _ fun _ hq => ?_
        subst hq
        refine Pins.get_of_below _ q fun b hb' => ?_
        rcases List.mem_cons.1 hb' with rfl | hb'
        · exact hlt
        · exact BitVec.lt_trans hlt (hb b hb')
      · by_cases hq : q = r
        · rw [if_neg fun e : q = p => hpr (e ▸ hq)]
          simp only [Pins.get, if_pos hq]
        · simp only [Pins.get, if_neg hq, ih (Pins.wf_tail hw)]

theorem Pins.mem_list {p : PinId} {v : Pin} {rest : Pins} {a : PinId × Pin}
    (h : a ∈ Pins.list p v rest) : (a = (p, v) ∧ v ≠ Pin.untouched) ∨ a ∈ rest := by
  unfold Pins.list at h
  split at h
  · exact .inr h
  · next hv => exact (List.mem_cons.1 h).imp (fun e => ⟨e, hv⟩) id

theorem Pins.mem_set {ps : Pins} {p : PinId} {v : Pin} {a : PinId × Pin}
    (h : a ∈ ps.set p v) : (a = (p, v) ∧ v ≠ Pin.untouched) ∨ a ∈ ps := by
  induction ps with
  | nil => simpa using Pins.mem_list h
  | cons b rest ih =>
    obtain ⟨r, w⟩ := b
    simp only [Pins.set] at h
    split at h
    · exact (Pins.mem_list h).imp id fun hm => by simp [hm]
    · split at h
      · exact Pins.mem_list h
      · rcases List.mem_cons.1 h with rfl | h
        · simp
        · exact (ih h).imp id fun hm => by simp [hm]

theorem Pins.wf_list {p : PinId} {v : Pin} {rest : Pins} (hw : rest.wf)
    (hb : ∀ b ∈ rest, p < b.1) : (Pins.list p v rest).wf := by
  unfold Pins.list
  split
  · exact hw
  · next hv =>
    exact ⟨List.pairwise_cons.2 ⟨hb, hw.1⟩, fun a ha => (List.mem_cons.1 ha).elim
      (fun e => by simpa [e] using hv) (hw.2 a)⟩

/-- A write keeps the canonical form. -/
theorem Pins.wf_set {ps : Pins} (hw : ps.wf) (p : PinId) (v : Pin) : (ps.set p v).wf := by
  induction ps with
  | nil => exact Pins.wf_list Pins.wf_nil (by simp)
  | cons a rest ih =>
    obtain ⟨r, w⟩ := a
    have hb := Pins.head_below hw
    simp only [Pins.set]
    split
    · next hpr => subst hpr; exact Pins.wf_list (Pins.wf_tail hw) hb
    · next hpr =>
      split
      · next hlt =>
        refine Pins.wf_list hw fun b hb' => ?_
        rcases List.mem_cons.1 hb' with rfl | hb'
        · exact hlt
        · exact BitVec.lt_trans hlt (hb b hb')
      · next hlt =>
        have hrp : r < p := by
          rcases Nat.lt_trichotomy p.toNat r.toNat with h | h | h
          · exact absurd h hlt
          · exact absurd (BitVec.eq_of_toNat_eq h) hpr
          · exact h
        have ih' := ih (Pins.wf_tail hw)
        refine ⟨List.pairwise_cons.2 ⟨fun b hb' => ?_, ih'.1⟩, fun b hb' => ?_⟩
        · rcases Pins.mem_set hb' with ⟨rfl, -⟩ | hb'
          · exact hrp
          · exact hb b hb'
        · rcases List.mem_cons.1 hb' with rfl | hb'
          · exact hw.2 (r, w) (by simp)
          · exact ih'.2 b hb'

/-- Every event keeps the canonical form. -/
theorem Pins.wf_apply {ps : Pins} (hw : ps.wf) (e : Event) : (ps.apply e).wf := by
  cases e with
  | cfg p => exact Pins.wf_set hw _ _
  | hi p => exact Pins.wf_set hw _ _
  | lo p => exact Pins.wf_set hw _ _
  | dms n => exact hw
  | dus n => exact hw

/-- Every list of events keeps the canonical form. -/
theorem Pins.wf_applyAll {ps : Pins} (hw : ps.wf) (es : List Event) : (ps.applyAll es).wf := by
  induction es generalizing ps with
  | nil => exact hw
  | cons e es ih => exact ih (Pins.wf_apply hw e)

end Sys2Proof.Machine
end

