-- ==== Sys2Proof/Laws/State.lean ====
section
/-! SUPPORT. One lemma per field for each named update of the state, so that no later proof unfolds a record update. -/

namespace Sys2Proof.Machine

variable {P : Type}

/-! ## `refuse` -/

@[simp] theorem refuse_config (g : Ground) (s : State P) : (refuse g s).config = s.config := rfl
@[simp] theorem refuse_failing (g : Ground) (s : State P) : (refuse g s).failing = s.failing := rfl
@[simp] theorem refuse_foreignPins (g : Ground) (s : State P) : (refuse g s).foreignPins = s.foreignPins := rfl
@[simp] theorem refuse_stream (g : Ground) (s : State P) : (refuse g s).stream = s.stream := rfl
@[simp] theorem refuse_handle (g : Ground) (s : State P) : (refuse g s).handle = s.handle := rfl
@[simp] theorem refuse_seq (g : Ground) (s : State P) : (refuse g s).seq = s.seq := rfl
@[simp] theorem refuse_busy (g : Ground) (s : State P) : (refuse g s).busy = s.busy := rfl
@[simp] theorem refuse_pins (g : Ground) (s : State P) : (refuse g s).pins = s.pins := rfl
@[simp] theorem refuse_trace (g : Ground) (s : State P) : (refuse g s).trace = s.trace := rfl
@[simp] theorem refuse_refused (g : Ground) (s : State P) : (refuse g s).refused = true := rfl
@[simp] theorem refuse_ground (g : Ground) (s : State P) : (refuse g s).ground = some g := rfl
@[simp] theorem refuse_providerFault (g : Ground) (s : State P) : (refuse g s).providerFault = s.providerFault := rfl

/-! ## `begin` -/

@[simp] theorem begin_config (s : State P) : (begin s).config = s.config := rfl
@[simp] theorem begin_failing (s : State P) : (begin s).failing = s.failing := rfl
@[simp] theorem begin_foreignPins (s : State P) : (begin s).foreignPins = s.foreignPins := rfl
@[simp] theorem begin_stream (s : State P) : (begin s).stream = s.stream := rfl
@[simp] theorem begin_handle (s : State P) : (begin s).handle = s.handle := rfl
@[simp] theorem begin_seq (s : State P) : (begin s).seq = s.seq := rfl
@[simp] theorem begin_busy (s : State P) : (begin s).busy = true := rfl
@[simp] theorem begin_pins (s : State P) : (begin s).pins = s.pins := rfl
@[simp] theorem begin_trace (s : State P) : (begin s).trace = s.trace := rfl
@[simp] theorem begin_refused (s : State P) : (begin s).refused = s.refused := rfl
@[simp] theorem begin_ground (s : State P) : (begin s).ground = s.ground := rfl
@[simp] theorem begin_providerFault (s : State P) : (begin s).providerFault = s.providerFault := rfl

/-! ## `State.emitted` -/

variable [DecidableEq P] [LT P] [DecidableLT P]

@[simp] theorem State.emitted_config (s : State P) (es : List (Event P)) : (s.emitted es).config = s.config := rfl
@[simp] theorem State.emitted_failing (s : State P) (es : List (Event P)) : (s.emitted es).failing = s.failing := rfl
@[simp] theorem State.emitted_foreignPins (s : State P) (es : List (Event P)) : (s.emitted es).foreignPins = s.foreignPins := rfl
@[simp] theorem State.emitted_stream (s : State P) (es : List (Event P)) : (s.emitted es).stream = s.stream := rfl
@[simp] theorem State.emitted_handle (s : State P) (es : List (Event P)) : (s.emitted es).handle = s.handle := rfl
@[simp] theorem State.emitted_seq (s : State P) (es : List (Event P)) : (s.emitted es).seq = s.seq := rfl
@[simp] theorem State.emitted_busy (s : State P) (es : List (Event P)) : (s.emitted es).busy = s.busy := rfl
@[simp] theorem State.emitted_pins (s : State P) (es : List (Event P)) : (s.emitted es).pins = s.pins.applyAll es := rfl
@[simp] theorem State.emitted_trace (s : State P) (es : List (Event P)) : (s.emitted es).trace = s.trace ++ es := rfl
@[simp] theorem State.emitted_refused (s : State P) (es : List (Event P)) : (s.emitted es).refused = s.refused := rfl
@[simp] theorem State.emitted_ground (s : State P) (es : List (Event P)) : (s.emitted es).ground = s.ground := rfl
@[simp] theorem State.emitted_providerFault (s : State P) (es : List (Event P)) : (s.emitted es).providerFault = s.providerFault := rfl

end Sys2Proof.Machine
end

