-- ==== Sys2Proof/Laws/Emit.lean ====
section
/-! SUPPORT. What emitting events can do: all of them, or those before the first on which a provider fails (R180). -/

namespace Sys2Proof.Machine

variable {P : Type} [DecidableEq P] [LT P] [DecidableLT P]

/-- One event on which the providers do not fail (R12). -/
theorem emit_of_quiet {s : State P} {e : Event P} (hp : s.providerFault = false)
    (hq : s.failing.contains e = false) :
    emit s e = { s with trace := s.trace ++ [e], pins := s.pins.apply e } := by
  simp only [emit, hp, State.providerFails, hq]
  simp

/-- After a provider failure nothing more is emitted (R180). -/
theorem emitAll_of_fault {s : State P} (hp : s.providerFault = true) (es : List (Event P)) :
    emitAll s es = s := by
  induction es with
  | nil => rfl
  | cons e es ih => simpa [emitAll, emit, hp] using ih

/-- A list of events on which the providers do not fail is emitted whole (R12). -/
theorem emitAll_of_quiet {s : State P} {es : List (Event P)} (hp : s.providerFault = false)
    (hq : s.quiet es) : emitAll s es = s.emitted es := by
  induction es generalizing s with
  | nil => simp [emitAll, State.emitted]
  | cons e es ih =>
    have h1 := emit_of_quiet hp (hq e (by simp))
    have h2 := ih (s := { s with trace := s.trace ++ [e], pins := s.pins.apply e }) hp
      (fun x hx => hq x (by simp [hx]))
    simp only [emitAll, List.foldl_cons, h1] at h2 ⊢
    rw [h2]
    simp [State.emitted]

theorem emitAll_append (s : State P) (a b : List (Event P)) :
    emitAll s (a ++ b) = emitAll (emitAll s a) b := List.foldl_append

/-- At the first event on which a provider fails, the events before it stand and nothing else is emitted
(R180). -/
theorem emitAll_of_failing {s : State P} {pre post : List (Event P)} {e : Event P}
    (hp : s.providerFault = false) (hq : s.quiet pre) (he : s.failing.contains e = true) :
    emitAll s (pre ++ e :: post) = { s.emitted pre with providerFault := true, busy := true } := by
  rw [emitAll_append, emitAll_of_quiet hp hq]
  have h1 : emit (s.emitted pre) e = { s.emitted pre with providerFault := true, busy := true } := by
    simp only [emit, State.providerFails, State.emitted_failing, he, State.emitted_providerFault, hp]
    simp
  show emitAll (emit (s.emitted pre) e) post = _
  rw [h1]
  exact emitAll_of_fault rfl post

omit [LT P] [DecidableLT P] in
/-- A list is quiet, or it has a first event on which the providers fail. -/
theorem quiet_or_first_failing (s : State P) (es : List (Event P)) :
    s.quiet es ∨ ∃ pre e post, es = pre ++ e :: post ∧ s.quiet pre ∧ s.failing.contains e = true := by
  induction es with
  | nil => exact .inl (by simp [State.quiet])
  | cons x es ih =>
    by_cases hx : s.failing.contains x = true
    · exact .inr ⟨[], x, es, rfl, by simp [State.quiet], hx⟩
    · have hx' : s.failing.contains x = false := by simpa using hx
      rcases ih with h | ⟨pre, e, post, rfl, hq, he⟩
      · exact .inl fun y hy => (List.mem_cons.1 hy).elim (fun e => e ▸ hx') (h y)
      · exact .inr ⟨x :: pre, e, post, rfl,
          fun y hy => (List.mem_cons.1 hy).elim (fun e => e ▸ hx') (hq y), he⟩

/-- Everything `emitAll` can do: emit all of the list, or stop before the first failing event. -/
theorem emitAll_cases {s : State P} (hp : s.providerFault = false) (es : List (Event P)) :
    (s.quiet es ∧ emitAll s es = s.emitted es) ∨
      ∃ pre e post, es = pre ++ e :: post ∧ s.quiet pre ∧ s.failing.contains e = true ∧
        emitAll s es = { s.emitted pre with providerFault := true, busy := true } := by
  rcases quiet_or_first_failing s es with h | ⟨pre, e, post, rfl, hq, he⟩
  · exact .inl ⟨h, emitAll_of_quiet hp h⟩
  · exact .inr ⟨pre, e, post, rfl, hq, he, emitAll_of_failing hp hq he⟩

omit [LT P] [DecidableLT P] in
theorem State.quiet_append {s : State P} {a b : List (Event P)} :
    s.quiet (a ++ b) ↔ s.quiet a ∧ s.quiet b := by
  simp only [State.quiet, List.mem_append]
  exact ⟨fun h => ⟨fun e he => h e (.inl he), fun e he => h e (.inr he)⟩,
    fun h e he => he.elim (h.1 e) (h.2 e)⟩

theorem State.emitted_emitted (s : State P) (a b : List (Event P)) :
    (s.emitted a).emitted b = s.emitted (a ++ b) := by
  simp [State.emitted, Pins.applyAll_append]

end Sys2Proof.Machine
end

