-- ==== Sys2Proof/Laws/Operations.lean ====
section
/-! SUPPORT. What each shared operation can do, once: refuse, run to its last event, or stop at a provider failure. -/

namespace Sys2Proof.Machine

variable {P : Type} [DecidableEq P] [LT P] [DecidableLT P]

/-! ## Primitives and bus words -/

theorem engineOperation_of_on {s : State P} {h : Handle P} {events : Config → Handle P → List (Event P)}
    (hs : s.engineOn h) (hq : s.quiet (events s.config h)) :
    engineOperation events s = s.emitted (events s.config h) := by
  simp only [engineOperation, hs.1]
  exact emitAll_of_quiet hs.2 hq

theorem engineOperation_of_no_handle {s : State P} {events : Config → Handle P → List (Event P)}
    (hs : s.handle = none) : engineOperation events s = refuse .noHandle s := by
  simp only [engineOperation, hs]

/-! ## The Display API -/

theorem apiOperation_of_ground {s : State P} {g : Ground} {events : Config → Handle P → List (Event P)}
    (hg : apiGround s = some g) : apiOperation events s = refuse g s := by
  simp only [apiOperation, hg]

omit [DecidableEq P] [LT P] [DecidableLT P] in
theorem apiGround_of_ready {s : State P} (hs : s.seq = .ready) (hb : s.busy = false) :
    apiGround s = none := by simp [apiGround, hs, hb]

/-- A Display API operation accepted on `h` emits its events and changes nothing else (R160). -/
theorem apiOperation_of_ready {s : State P} {h : Handle P} {events : Config → Handle P → List (Event P)}
    (hs : s.readyOn h) (hq : s.quiet (events s.config h)) :
    apiOperation events s = s.emitted (events s.config h) := by
  obtain ⟨hseq, hb, hp, hh⟩ := hs
  have he : emitAll (begin s) (events s.config h) = (begin s).emitted (events s.config h) :=
    emitAll_of_quiet hp hq
  have hc : s = { s with busy := false } := by rw [← hb]
  simp only [apiOperation, apiGround_of_ready hseq hb, hh, he, finish]
  rw [if_neg (by simp [hp])]
  conv_rhs => rw [hc]
  rfl

/-- A Display API operation stopped by a provider (R180). -/
theorem apiOperation_of_failing {s : State P} {h : Handle P} {events : Config → Handle P → List (Event P)}
    {pre post : List (Event P)} {e : Event P} (hs : s.readyOn h)
    (hev : events s.config h = pre ++ e :: post) (hq : s.quiet pre)
    (he : s.failing.contains e = true) :
    apiOperation events s = { s.emitted pre with providerFault := true, busy := true } := by
  obtain ⟨hseq, hb, hp, hh⟩ := hs
  have hx : emitAll (begin s) (events s.config h) =
      { (begin s).emitted pre with providerFault := true, busy := true } := by
    rw [hev]; exact emitAll_of_failing hp hq he
  simp only [apiOperation, apiGround_of_ready hseq hb, hh, hx, finish]
  rfl

/-- Everything a Display API operation can do in a state whose `Ready` has a handle. -/
theorem apiOperation_cases (s : State P) (events : Config → Handle P → List (Event P))
    (hh : s.busy = false → s.seq = .ready → ∃ h, s.handle = some h) (hp : s.busy = s.providerFault) :
    (∃ g, apiGround s = some g ∧ apiOperation events s = refuse g s) ∨
      ∃ h, s.readyOn h ∧
        ((s.quiet (events s.config h) ∧ apiOperation events s = s.emitted (events s.config h)) ∨
          ∃ pre e post, events s.config h = pre ++ e :: post ∧ s.quiet pre ∧
            s.failing.contains e = true ∧
            apiOperation events s = { s.emitted pre with providerFault := true, busy := true }) := by
  cases hg : apiGround s with
  | some g => exact .inl ⟨g, rfl, apiOperation_of_ground hg⟩
  | none =>
    have hb : s.busy = false := by
      cases hb : s.busy <;> simp [apiGround, hb] at hg ⊢
    have hseq : s.seq = .ready := by
      by_contra hne
      simp [apiGround, hb, hne] at hg
    obtain ⟨h, hh⟩ := hh hb hseq
    have hr : s.readyOn h := ⟨hseq, hb, hp ▸ hb, hh⟩
    refine .inr ⟨h, hr, ?_⟩
    rcases quiet_or_first_failing s (events s.config h) with hq | ⟨pre, e, post, hev, hq, he⟩
    · exact .inl ⟨hq, apiOperation_of_ready hr hq⟩
    · exact .inr ⟨pre, e, post, hev, hq, he, apiOperation_of_failing hr hev hq he⟩

/-! ## INIT -/

theorem initOperation_of_ground {s : State P} {h : Handle P} {g : Ground}
    (hg : initGround h s = some g) : initOperation h s = refuse g s := by
  simp only [initOperation, hg]

omit [LT P] [DecidableLT P] in
theorem initGround_of_accepts {s : State P} {h : Handle P} (hs : s.acceptsInit h) :
    initGround h s = none := by
  obtain ⟨hb, -, hd, hf⟩ := hs
  have : (h.pins.any fun p => s.foreignPins.contains p) = false := by
    rw [List.any_eq_false]; intro p hp; simp only [hf p hp]; simp
  simp only [initGround, hb, hd, this]; simp

omit [LT P] [DecidableLT P] in
theorem initGround_of_busy {s : State P} {h : Handle P} (hb : s.busy = true) :
    initGround h s = some .busy := by simp [initGround, hb]

omit [LT P] [DecidableLT P] in
theorem initGround_of_equal_pins {s : State P} {h : Handle P} (hb : s.busy = false) (hd : ¬ h.distinct) :
    initGround h s = some .pinsNotDistinct := by
  unfold initGround; rw [if_neg (by simp [hb]), if_neg hd]

omit [LT P] [DecidableLT P] in
theorem initGround_of_held {s : State P} {h : Handle P} (hb : s.busy = false) (hd : h.distinct)
    (hf : (h.pins.any fun p => s.foreignPins.contains p) = true) :
    initGround h s = some .pinHeld := by
  unfold initGround; rw [if_neg (by simp [hb]), if_pos hd, if_pos hf]

omit [LT P] [DecidableLT P] in
/-- An INIT is refused, or it is accepted; there is no third case without a provider failure before it. -/
theorem initGround_or_accepts (s : State P) (h : Handle P) (hp : s.busy = s.providerFault) :
    (∃ g, initGround h s = some g) ∨ s.acceptsInit h := by
  by_cases hb : s.busy = true
  · exact .inl ⟨_, initGround_of_busy hb⟩
  have hb : s.busy = false := by simpa using hb
  by_cases hd : h.distinct
  · cases hf : h.pins.any fun p => s.foreignPins.contains p
    · refine .inr ⟨hb, hp ▸ hb, hd, fun p hm => ?_⟩
      have := List.any_eq_false.1 hf p hm
      simpa using this
    · exact .inl ⟨_, initGround_of_held hb hd hf⟩
  · exact .inl ⟨_, initGround_of_equal_pins hb hd⟩

/-- One transition without a provider failure: its events, then `seq` (R121). -/
theorem transition_of_quiet {s : State P} {ph : List (Event P) × Seq} (hp : s.providerFault = false)
    (hq : s.quiet ph.1) : transition s ph = { s.emitted ph.1 with seq := ph.2 } := by
  simp only [transition, emitAll_of_quiet hp hq, State.emitted_providerFault, hp]
  simp

/-- After a provider failure no transition is taken (R180). -/
theorem transitions_of_fault {s : State P} (hp : s.providerFault = true)
    (phs : List (List (Event P) × Seq)) : phs.foldl transition s = s := by
  induction phs with
  | nil => rfl
  | cons ph phs ih =>
    have : transition s ph = s := by simp [transition, emitAll_of_fault hp, hp]
    simpa [this] using ih

/-- A row of transitions without a provider failure: all their events, and the last state (R121). -/
theorem transitions_of_quiet {s : State P} (phs : List (List (Event P) × Seq))
    (hp : s.providerFault = false) (hq : s.quiet (phs.flatMap Prod.fst)) :
    phs.foldl transition s =
      { s.emitted (phs.flatMap Prod.fst) with seq := (phs.getLast?.map Prod.snd).getD s.seq } := by
  induction phs generalizing s with
  | nil => simp [State.emitted]
  | cons ph phs ih =>
    obtain ⟨h1, h2⟩ := State.quiet_append.1 (by simpa using hq)
    rw [List.foldl_cons, transition_of_quiet hp h1, ih (by exact hp) (by exact h2)]
    cases phs with
    | nil => simp [State.emitted]
    | cons b bs => simp [State.emitted, Pins.applyAll_append, List.getLast?_cons]

/-- The state INIT's transitions start from (R120, R122). -/
theorem initOperation_of_accepts {s : State P} {h : Handle P} (hs : s.acceptsInit h) :
    initOperation h s = finish ((initPhases s.config h).foldl transition
      { begin s with handle := some h, seq := .unpowered }) := by
  simp only [initOperation, initGround_of_accepts hs]

/-- An accepted INIT without a provider failure (R120). -/
theorem initOperation_of_quiet {s : State P} {h : Handle P} (hs : s.acceptsInit h)
    (hq : s.quiet (initEvents s.config h)) :
    initOperation h s =
      { s.emitted (initEvents s.config h) with handle := some h, seq := .ready } := by
  obtain ⟨hb, hp, -, -⟩ := id hs
  have hc : s = { s with busy := false } := by rw [← hb]
  rw [initOperation_of_accepts hs, transitions_of_quiet _ (by exact hp) (by exact hq)]
  simp only [finish]
  rw [if_neg (by simp [hp])]
  conv_rhs => rw [hc]
  rfl

/-- An INIT stopped by a provider inside one of its transitions: the transitions before it are taken, its
events before the failure stand, `seq` keeps the value it had (R180). -/
theorem initOperation_of_failing {s : State P} {h : Handle P} {before after : List (List (Event P) × Seq)}
    {pre post : List (Event P)} {e : Event P} {q : Seq} (hs : s.acceptsInit h)
    (hph : initPhases s.config h = before ++ (pre ++ e :: post, q) :: after)
    (hq : s.quiet (before.flatMap Prod.fst ++ pre)) (he : s.failing.contains e = true) :
    initOperation h s =
      { s.emitted (before.flatMap Prod.fst ++ pre) with
        handle := some h
        seq := (before.getLast?.map Prod.snd).getD .unpowered
        providerFault := true
        busy := true } := by
  obtain ⟨hb, hp, -, -⟩ := id hs
  obtain ⟨hq1, hq2⟩ := State.quiet_append.1 hq
  rw [initOperation_of_accepts hs, hph, List.foldl_append,
    transitions_of_quiet before (by exact hp) (by exact hq1), List.foldl_cons]
  have ht : transition
      { State.emitted { begin s with handle := some h, seq := .unpowered }
          (before.flatMap Prod.fst) with
        seq := (before.getLast?.map Prod.snd).getD .unpowered } (pre ++ e :: post, q) =
      { s.emitted (before.flatMap Prod.fst ++ pre) with
        handle := some h
        seq := (before.getLast?.map Prod.snd).getD .unpowered
        providerFault := true
        busy := true } := by
    simp only [transition]
    rw [emitAll_of_failing (by exact hp) (by exact hq2) (by exact he)]
    simp [State.emitted, Pins.applyAll_append]
  rw [ht, transitions_of_fault rfl]
  rfl

end Sys2Proof.Machine
end

