-- ==== Sys2Proof/Laws/Step.lean ====
section
/-! SUPPORT. What a step can do, once: wait, refuse a malformed request, or run one operation; and what an operation can
be. -/

namespace Sys2Proof.Machine

theorem fetch_of_wait {s : State} (hl : s.config.legal) (h : s.busy = true ∨ decode s.stream = .empty) :
    fetch s = .wait := by
  simp only [fetch, if_pos hl]
  by_cases hb : s.busy = true
  · rw [if_pos hb]
  · rw [if_neg hb, h.resolve_left hb]

theorem fetch_of_malformed {s : State} (hl : s.config.legal) (hb : s.busy = false)
    (h : (∃ b, decode s.stream = .reservedOpcode b) ∨ decode s.stream = .truncated) :
    fetch s = .malformed (refuseMalformed s) := by
  simp only [fetch, if_pos hl]
  rw [if_neg (by simp [hb])]
  rcases h with ⟨b, h⟩ | h <;> rw [h]

theorem fetch_of_operation {s : State} {i : Instr} {rest : List Byte} (hl : s.config.legal)
    (hb : s.busy = false) (h : decode s.stream = .instr i rest) :
    fetch s = .operation i { s with stream := rest } := by
  simp only [fetch, if_pos hl]
  rw [if_neg (by simp [hb]), h]

/-- Everything a step that answers a next state can do. -/
theorem step_cases {s t : State} (h : step s = .next t) :
    s.config.legal ∧
      (t = s ∨ (s.busy = false ∧ t = refuseMalformed s) ∨
        ∃ i rest, s.busy = false ∧ decode s.stream = .instr i rest ∧
          exec i { s with stream := rest } = .next t) := by
  by_cases hl : s.config.legal
  · refine ⟨hl, ?_⟩
    by_cases hb : s.busy = false
    · cases hd : decode s.stream with
      | empty =>
        simp only [step, fetch_of_wait hl (.inr hd), Host.Outcome.next.injEq] at h
        exact .inl h.symm
      | instr i rest =>
        simp only [step, fetch_of_operation hl hb hd] at h
        exact .inr (.inr ⟨i, rest, hb, rfl, h⟩)
      | reservedOpcode b =>
        simp only [step, fetch_of_malformed hl hb (.inl ⟨b, hd⟩), Host.Outcome.next.injEq] at h
        exact .inr (.inl ⟨hb, h.symm⟩)
      | truncated =>
        simp only [step, fetch_of_malformed hl hb (.inr hd), Host.Outcome.next.injEq] at h
        exact .inr (.inl ⟨hb, h.symm⟩)
    · simp only [step, fetch_of_wait hl (.inl (by simpa using hb)), Host.Outcome.next.injEq] at h
      exact .inl h.symm
  · simp only [step, fetch, if_neg hl] at h
    cases h

/-- The events of a Display API operation (R140 to R158); none for the other operations. -/
def apiEvents : Instr → Option (Config → Handle → List Event)
  | .init _ _ _ _ _ _ => none
  | .clear => some clearEvents
  | .setCursor row column => some (setCursorEvents row column)
  | .print text => some (printEvents text)
  | .printGlyph code => some (printGlyphEvents code)
  | .createGlyph index bitmap => some (createGlyphEvents index bitmap)
  | .pulseEnable => none
  | .transmitNibble _ => none
  | .sendByte _ _ => none
  | .sendCommand _ => none
  | .sendData _ => none
  | .resetNibble => none
  | .mode4Nibble => none
  | .functionSet _ _ _ _ => none
  | .displayControl _ _ _ => none
  | .clearDisplay => none
  | .entryModeSet _ _ => none
  | .setDdramAddr _ => none
  | .setCgramAddr _ => none
  | .writeData _ => none

/-- The events of a primitive or a bus word (R80, R81, R100 to R108); none for the host operations. -/
def engineEvents : Instr → Option (Config → Handle → List Event)
  | .init _ _ _ _ _ _ => none
  | .clear => none
  | .setCursor _ _ => none
  | .print _ => none
  | .printGlyph _ => none
  | .createGlyph _ _ => none
  | .pulseEnable => some pulseEnable
  | .transmitNibble v => some (fun c h => transmitNibble c h v)
  | .sendByte value isData => some (fun c h => sendByte c h value isData)
  | .sendCommand value => some (fun c h => sendCommand c h value)
  | .sendData value => some (fun c h => sendData c h value)
  | .resetNibble => some (fun c h => transmitNibble c h wordResetNibble.n)
  | .mode4Nibble => some (fun c h => transmitNibble c h wordMode4Nibble.n)
  | .functionSet l n f x => some (fun c h => sendWord c h (wordFunctionSet l n f x))
  | .displayControl d c b => some (fun cfg h => sendWord cfg h (wordDisplayControl d c b))
  | .clearDisplay => some (fun c h => sendWord c h wordClearDisplay)
  | .entryModeSet i sh => some (fun c h => sendWord c h (wordEntryModeSet i sh))
  | .setDdramAddr a => some (fun c h => sendWord c h (wordSetDdramAddr a))
  | .setCgramAddr a => some (fun c h => sendWord c h (wordSetCgramAddr a))
  | .writeData d => some (fun c h => sendWord c h (wordWriteData d))

/-- Every operation is an INIT, a Display API operation, or a primitive or bus word, run by the shared
operation of its kind. -/
theorem exec_cases (i : Instr) (s : State) :
    (∃ rs en d4 d5 d6 d7, i = .init rs en d4 d5 d6 d7 ∧
      exec i s = .next (initOperation ⟨rs, en, d4, d5, d6, d7⟩ s)) ∨
    (∃ events, apiEvents i = some events ∧ i.layer = .host ∧
      exec i s = .next (apiOperation events s)) ∨
    (∃ events, engineEvents i = some events ∧ i.layer ≠ .host ∧
      exec i s = .next (engineOperation events s)) := by
  cases i with
  | init rs en d4 d5 d6 d7 => exact .inl ⟨rs, en, d4, d5, d6, d7, rfl, rfl⟩
  | clear => exact .inr (.inl ⟨_, rfl, rfl, rfl⟩)
  | setCursor row column => exact .inr (.inl ⟨_, rfl, rfl, rfl⟩)
  | print text => exact .inr (.inl ⟨_, rfl, rfl, rfl⟩)
  | printGlyph code => exact .inr (.inl ⟨_, rfl, rfl, rfl⟩)
  | createGlyph index bitmap => exact .inr (.inl ⟨_, rfl, rfl, rfl⟩)
  | pulseEnable => exact .inr (.inr ⟨_, rfl, by decide, rfl⟩)
  | transmitNibble v => exact .inr (.inr ⟨_, rfl, by simp [Instr.layer], rfl⟩)
  | sendByte value isData => exact .inr (.inr ⟨_, rfl, by simp [Instr.layer], rfl⟩)
  | sendCommand value => exact .inr (.inr ⟨_, rfl, by simp [Instr.layer], rfl⟩)
  | sendData value => exact .inr (.inr ⟨_, rfl, by simp [Instr.layer], rfl⟩)
  | resetNibble => exact .inr (.inr ⟨_, rfl, by decide, rfl⟩)
  | mode4Nibble => exact .inr (.inr ⟨_, rfl, by decide, rfl⟩)
  | functionSet l n f x => exact .inr (.inr ⟨_, rfl, by simp [Instr.layer], rfl⟩)
  | displayControl d c b => exact .inr (.inr ⟨_, rfl, by simp [Instr.layer], rfl⟩)
  | clearDisplay => exact .inr (.inr ⟨_, rfl, by decide, rfl⟩)
  | entryModeSet m sh => exact .inr (.inr ⟨_, rfl, by simp [Instr.layer], rfl⟩)
  | setDdramAddr a => exact .inr (.inr ⟨_, rfl, by simp [Instr.layer], rfl⟩)
  | setCgramAddr a => exact .inr (.inr ⟨_, rfl, by simp [Instr.layer], rfl⟩)
  | writeData d => exact .inr (.inr ⟨_, rfl, by simp [Instr.layer], rfl⟩)

end Sys2Proof.Machine
end

