-- ==== Sys2Proof/Laws/Frame.lean ====
section
/-! SUPPORT. The frame of every operation, once: what it emits is a beginning of the events its rule gives it, and what
it leaves alone. -/

namespace Sys2Proof.Machine

/-- `t` is `s` after the events `es`, with configuration, environment and stream as they were and no mark
cleared. -/
structure Emits (s t : State) (es : List Event) : Prop where
  trace : t.trace = s.trace ++ es
  pins : t.pins = s.pins.applyAll es
  config : t.config = s.config
  failing : t.failing = s.failing
  foreignPins : t.foreignPins = s.foreignPins
  stream : t.stream = s.stream
  refused : s.refused = true → t.refused = true
  providerFault : s.providerFault = true → t.providerFault = true

theorem Emits.refl (s : State) : Emits s s [] := by constructor <;> simp

theorem Emits.of_refuse (g : Ground) (s : State) : Emits s (refuse g s) [] := by constructor <;> simp

theorem Emits.trans {s t u : State} {a b : List Event} (h1 : Emits s t a) (h2 : Emits t u b) :
    Emits s u (a ++ b) where
  trace := by rw [h2.trace, h1.trace, List.append_assoc]
  pins := by rw [h2.pins, h1.pins, Pins.applyAll_append]
  config := h2.config.trans h1.config
  failing := h2.failing.trans h1.failing
  foreignPins := h2.foreignPins.trans h1.foreignPins
  stream := h2.stream.trans h1.stream
  refused := fun h => h2.refused (h1.refused h)
  providerFault := fun h => h2.providerFault (h1.providerFault h)

/-- `finish` and the beginning of an operation emit nothing. -/
theorem Emits.of_finish {s t : State} {es : List Event} (h : Emits s t es) : Emits s (finish t) es := by
  unfold finish
  split
  · exact h
  · exact ⟨h.trace, h.pins, h.config, h.failing, h.foreignPins, h.stream, h.refused, h.providerFault⟩

theorem Emits.of_begin {s t : State} {es : List Event} (h : Emits (begin s) t es) : Emits s t es :=
  ⟨h.trace, h.pins, h.config, h.failing, h.foreignPins, h.stream, h.refused, h.providerFault⟩

theorem Emits.of_begin_init {s t : State} {es : List Event} {o : Option Handle} {q : Seq}
    (h : Emits { begin s with handle := o, seq := q } t es) : Emits s t es :=
  ⟨h.trace, h.pins, h.config, h.failing, h.foreignPins, h.stream, h.refused, h.providerFault⟩

@[simp] theorem finish_handle (s : State) : (finish s).handle = s.handle := by
  unfold finish; split <;> rfl

/-- Emitting a list: a beginning of it is emitted, all of it unless a provider has failed; handle, `seq` and
the report stay. -/
theorem emitAll_emits (s : State) (es : List Event) :
    ∃ pre, pre <+: es ∧ Emits s (emitAll s es) pre ∧ (emitAll s es).handle = s.handle ∧
      (emitAll s es).seq = s.seq ∧ (emitAll s es).refused = s.refused ∧
      (emitAll s es).ground = s.ground ∧
      ((emitAll s es).providerFault = false → pre = es ∧ s.quiet es) ∧
      (s.busy = true → (emitAll s es).busy = true) := by
  by_cases hp : s.providerFault = true
  · rw [emitAll_of_fault hp]
    exact ⟨[], List.nil_prefix, Emits.refl s, rfl, rfl, rfl, rfl, by simp [hp], id⟩
  · have hp : s.providerFault = false := by simpa using hp
    rcases emitAll_cases hp es with ⟨hq, h⟩ | ⟨pre, e, post, rfl, -, -, h⟩
    · rw [h]
      exact ⟨es, List.prefix_rfl, by constructor <;> simp, rfl, rfl, rfl, rfl, fun _ => ⟨rfl, hq⟩, id⟩
    · rw [h]
      exact ⟨pre, List.prefix_append _ _, by constructor <;> simp, rfl, rfl, rfl, rfl, by simp,
        fun _ => rfl⟩

/-- A row of transitions: a beginning of their events is emitted, all of them unless a provider has failed. -/
theorem transitions_emits (phs : List (List Event × Seq)) (s : State) :
    ∃ pre, pre <+: phs.flatMap Prod.fst ∧ Emits s (phs.foldl transition s) pre ∧
      (phs.foldl transition s).handle = s.handle ∧
      (phs.foldl transition s).refused = s.refused ∧ (phs.foldl transition s).ground = s.ground ∧
      ((phs.foldl transition s).providerFault = false →
        pre = phs.flatMap Prod.fst ∧ s.quiet (phs.flatMap Prod.fst)) ∧
      (s.busy = true → (phs.foldl transition s).busy = true) := by
  induction phs generalizing s with
  | nil =>
    exact ⟨[], List.prefix_rfl, Emits.refl s, rfl, rfl, rfl, fun _ => ⟨rfl, by simp [State.quiet]⟩, id⟩
  | cons ph phs ih =>
    obtain ⟨p1, hpre, he, hh, -, hr, hg, hf, hb⟩ := emitAll_emits s ph.1
    by_cases hp : (emitAll s ph.1).providerFault = true
    · have ht : transition s ph = emitAll s ph.1 := by simp [transition, hp]
      rw [List.foldl_cons, ht, transitions_of_fault hp]
      exact ⟨p1, hpre.trans (by simp), he, hh, hr, hg, by simp [hp], hb⟩
    · have hp : (emitAll s ph.1).providerFault = false := by simpa using hp
      obtain ⟨rfl, hq1⟩ := hf hp
      have ht : transition s ph = { emitAll s ph.1 with seq := ph.2 } := by simp [transition, hp]
      have h1 : Emits s (transition s ph) ph.1 := by
        rw [ht]
        exact ⟨he.trace, he.pins, he.config, he.failing, he.foreignPins, he.stream, he.refused,
          he.providerFault⟩
      obtain ⟨p2, hpre2, he2, hh2, hr2, hg2, hf2, hb2⟩ := ih (transition s ph)
      refine ⟨ph.1 ++ p2, by simpa using hpre2, h1.trans he2, ?_, ?_, ?_, fun h => ?_, fun h => ?_⟩
      · rw [List.foldl_cons, hh2, ht]; exact hh
      · rw [List.foldl_cons, hr2, ht]; exact hr
      · rw [List.foldl_cons, hg2, ht]; exact hg
      · obtain ⟨rfl, hq2⟩ := hf2 h
        have hq : s.quiet (phs.flatMap Prod.fst) := by
          intro e he'
          have := hq2 e he'
          rwa [h1.failing] at this
        exact ⟨by simp, by rw [List.flatMap_cons]; exact State.quiet_append.2 ⟨hq1, hq⟩⟩
      · exact hb2 (by rw [ht]; exact hb h)

/-- Everything an INIT can do between steps: be refused, run whole, or stop at a provider failure. -/
theorem initOperation_cases (s : State) (h : Handle) (hp : s.busy = s.providerFault) :
    (∃ g, initGround h s = some g ∧ initOperation h s = refuse g s) ∨
      (s.acceptsInit h ∧ s.quiet (initEvents s.config h) ∧
        initOperation h s =
          { s.emitted (initEvents s.config h) with handle := some h, seq := .ready }) ∨
      (s.acceptsInit h ∧ (∃ pre, pre <+: initEvents s.config h ∧ Emits s (initOperation h s) pre) ∧
        (initOperation h s).handle = some h ∧ (initOperation h s).providerFault = true ∧
        (initOperation h s).busy = true ∧ (initOperation h s).refused = s.refused ∧
        (initOperation h s).ground = s.ground) := by
  rcases initGround_or_accepts s h hp with ⟨g, hg⟩ | ha
  · exact .inl ⟨g, hg, initOperation_of_ground hg⟩
  by_cases hq : s.quiet (initEvents s.config h)
  · exact .inr (.inl ⟨ha, hq, initOperation_of_quiet ha hq⟩)
  obtain ⟨pre, hpre, he, hh, hr, hg, hf, hb⟩ := transitions_emits (initPhases s.config h)
    { begin s with handle := some h, seq := .unpowered }
  rw [initOperation_of_accepts ha]
  generalize (initPhases s.config h).foldl transition
    { begin s with handle := some h, seq := .unpowered } = t at he hh hr hg hf hb
  have hpf : t.providerFault = true := by
    by_contra hne
    exact hq (hf (by simpa using hne)).2
  have ht : finish t = t := by simp [finish, hpf]
  rw [ht]
  exact .inr (.inr ⟨ha, ⟨pre, hpre, he.of_begin_init⟩, hh, hpf, hb rfl, hr, hg⟩)

/-- The events an operation's rule gives it, on the handle it addresses pins through. -/
def operationEvents (i : Instr) (c : Config) (h : Handle) : List Event :=
  match apiEvents i, engineEvents i with
  | some events, _ => events c h
  | none, some events => events c h
  | none, none => initEvents c h

/-- What any operation does: nothing but its marks, or a beginning of its events on the handle it leaves
behind. -/
theorem exec_emits {i : Instr} {s t : State} (h : exec i s = .next t) :
    ∃ es, Emits s t es ∧
      (es = [] ∨ ∃ hd, t.handle = some hd ∧ es <+: operationEvents i s.config hd) := by
  rcases exec_cases i s with ⟨rs, en, d4, d5, d6, d7, rfl, hx⟩ | ⟨ev, hev, -, hx⟩ | ⟨ev, hev, -, hx⟩
  · rw [hx] at h
    cases h
    cases hg : initGround ⟨rs, en, d4, d5, d6, d7⟩ s with
    | some g => exact ⟨[], initOperation_of_ground hg ▸ Emits.of_refuse g s, .inl rfl⟩
    | none =>
      obtain ⟨pre, hpre, he, hh, -⟩ := transitions_emits
        (initPhases s.config ⟨rs, en, d4, d5, d6, d7⟩)
        { begin s with handle := some ⟨rs, en, d4, d5, d6, d7⟩, seq := .unpowered }
      simp only [initOperation, hg]
      exact ⟨pre, he.of_begin_init.of_finish, .inr ⟨_, (finish_handle _).trans hh, hpre⟩⟩
  · rw [hx] at h
    cases h
    cases hg : apiGround s with
    | some g => exact ⟨[], apiOperation_of_ground hg ▸ Emits.of_refuse g s, .inl rfl⟩
    | none =>
      cases hs : s.handle with
      | none => exact ⟨[], by simpa [apiOperation, hg, hs] using Emits.of_refuse .noHandle s, .inl rfl⟩
      | some hd =>
        obtain ⟨pre, hpre, he, hh, -⟩ := emitAll_emits (begin s) (ev s.config hd)
        refine ⟨pre, ?_, .inr ⟨hd, ?_, by simpa [operationEvents, hev] using hpre⟩⟩
        · simpa only [apiOperation, hg, hs] using he.of_begin.of_finish
        · simpa only [apiOperation, hg, hs, finish_handle] using hh.trans hs
  · rw [hx] at h
    cases h
    cases hs : s.handle with
    | none => exact ⟨[], engineOperation_of_no_handle hs ▸ Emits.of_refuse .noHandle s, .inl rfl⟩
    | some hd =>
      obtain ⟨pre, hpre, he, hh, -⟩ := emitAll_emits s (ev s.config hd)
      have ha : apiEvents i = none := by cases i <;> simp [engineEvents, apiEvents] at hev ⊢
      refine ⟨pre, ?_, .inr ⟨hd, ?_, by simpa [operationEvents, hev, ha] using hpre⟩⟩
      · simpa only [engineOperation, hs] using he
      · simpa only [engineOperation, hs] using hh.trans hs

end Sys2Proof.Machine
end

