-- ==== Sys2Proof/Laws/PerInstr.lean ====
section
/-! SUPPORT. The family `HostLength`: the host encoding of an operation has the length of R72's table. -/

namespace Sys2Proof.Laws.HostLength

/-- "total length" (R72): an operation's encoding has the length the table gives it; the primitives and the
bus words have none (R71). -/
def Statement (i : Instr) : Prop := (encode i).length = hostLength i

theorem init (rs en d4 d5 d6 d7 : PinId) : Statement (.init rs en d4 d5 d6 d7) := rfl
theorem clear : Statement .clear := rfl
theorem setCursor (row column : Byte) : Statement (.setCursor row column) := rfl
theorem print (text : List Byte) : Statement (.print text) := by simp [Statement, encode, hostLength]; omega
theorem printGlyph (code : Byte) : Statement (.printGlyph code) := rfl
theorem createGlyph (index : Byte) (bitmap : Bitmap) : Statement (.createGlyph index bitmap) := rfl
theorem pulseEnable : Statement .pulseEnable := rfl
theorem transmitNibble (v : Nibble) : Statement (.transmitNibble v) := rfl
theorem sendByte (value : Byte) (isData : Bool) : Statement (.sendByte value isData) := rfl
theorem sendCommand (value : Byte) : Statement (.sendCommand value) := rfl
theorem sendData (value : Byte) : Statement (.sendData value) := rfl
theorem resetNibble : Statement .resetNibble := rfl
theorem mode4Nibble : Statement .mode4Nibble := rfl
theorem functionSet (l n f : Bool) (x : BitVec 2) : Statement (.functionSet l n f x) := rfl
theorem displayControl (d c b : Bool) : Statement (.displayControl d c b) := rfl
theorem clearDisplay : Statement .clearDisplay := rfl
theorem entryModeSet (i s : Bool) : Statement (.entryModeSet i s) := rfl
theorem setDdramAddr (a : BitVec 7) : Statement (.setDdramAddr a) := rfl
theorem setCgramAddr (a : BitVec 6) : Statement (.setCgramAddr a) := rfl
theorem writeData (d : Byte) : Statement (.writeData d) := rfl

end Sys2Proof.Laws.HostLength
end

