-- ==== Sys2Proof/Laws/Program.lean ====
section
/-! SUPPORT. What a tick of an instance and a step of a fleet can do, once. -/

namespace Sys2Proof.Machine

/-! ## Ticks -/

section
variable {P : Type} [DecidableEq P] [LT P] [DecidableLT P]

@[simp] theorem Running.ticks_zero (r : Running P) : Running.ticks 0 r = r := rfl

@[simp] theorem Running.ticks_succ (n : Nat) (r : Running P) :
    Running.ticks (n + 1) r = Running.ticks n r.tick := rfl

theorem Running.ticks_add (a b : Nat) (r : Running P) :
    Running.ticks (a + b) r = Running.ticks b (Running.ticks a r) := by
  induction a generalizing r with
  | zero => simp
  | succ a ih => rw [Nat.succ_add, Running.ticks_succ, Running.ticks_succ, ih]

/-- No tick writes the handle: an INIT does so at its issue (R122). -/
@[simp] theorem Running.tick_handle (r : Running P) : r.tick.state.handle = r.state.handle := by
  unfold Running.tick
  split
  · rfl
  · simp only [emit]; split_ifs <;> rfl
  · rfl
  · simp only [finish]; split <;> rfl

/-- A tick adds at most one event to the trace, the next of those still to be emitted. -/
theorem Running.tick_trace (r : Running P) :
    r.tick.state.trace = r.state.trace ∨
      ∃ e, Micro.emit e ∈ r.todo ∧ r.tick.state.trace = r.state.trace ++ [e] := by
  unfold Running.tick
  split
  · exact .inl rfl
  · next e rest ht =>
    simp only [emit]
    split_ifs
    · exact .inl rfl
    · exact .inl rfl
    · exact .inr ⟨e, by simp [ht], rfl⟩
  · exact .inl rfl
  · left; simp only [finish]; split <;> rfl

/-- A row of events, one tick each: what `emitAll` makes of them, and nothing left after a failure (R180). -/
theorem Running.ticks_ofEvents (es : List (Event P)) (s : State P) (rest : List (Micro P))
    (hp : s.providerFault = false) :
    ∃ n, Running.ticks n ⟨s, Micro.ofEvents es ++ rest⟩ =
      ⟨emitAll s es, if (emitAll s es).providerFault then [] else rest⟩ := by
  induction es generalizing s with
  | nil => exact ⟨0, by simp [Micro.ofEvents, emitAll, hp]⟩
  | cons e es ih =>
    cases hq : (emit s e).providerFault
    · obtain ⟨n, h⟩ := ih (emit s e) hq
      refine ⟨n + 1, ?_⟩
      show Running.ticks n (Running.tick ⟨s, .emit e :: (Micro.ofEvents es ++ rest)⟩) = _
      simp only [Running.tick, hq]
      exact h
    · refine ⟨1, ?_⟩
      show Running.tick ⟨s, .emit e :: (Micro.ofEvents es ++ rest)⟩ = _
      have : emitAll s (e :: es) = emit s e := emitAll_of_fault hq es
      simp only [Running.tick, hq, this, if_true]

end

/-! ## A fleet -/

@[simp] theorem Fleet.move_members (f : Fleet) (k : Nat) (r : Running) (es : List Event) :
    (f.move k r es).members = f.members.set k r := rfl

@[simp] theorem Fleet.move_trace (f : Fleet) (k : Nat) (r : Running) (es : List Event) :
    (f.move k r es).trace = f.trace ++ es.map (fun e => (k, e)) := rfl

/-- Everything a step of a fleet that answers a next one can do: wait, one tick of the operation in progress,
refuse a malformed request, or take the next operation. -/
theorem Fleet.step_cases {f g : Fleet} {k : Nat} (h : f.step k = .next g) :
    g = f ∨ ∃ r, f.members[k]? = some r ∧
      ((r.todo ≠ [] ∧ g = f.move k r.tick (r.tick.state.emittedSince r.state.trace)) ∨
        (r.todo = [] ∧
          g = f.move k ⟨refuseMalformed { r.state with foreignPins := f.foreignPins k }, []⟩ []) ∨
        (r.todo = [] ∧ r.state.busy = false ∧ ∃ i rest, decode r.state.stream = .instr i rest ∧
          g = f.move k
            (issue id i { r.state with foreignPins := f.foreignPins k, stream := rest }) [])) := by
  unfold Fleet.step at h
  split at h
  · cases h; exact .inl rfl
  next r hr =>
  split at h
  · next m rest ht => cases h; exact .inr ⟨r, hr, .inl ⟨by simp [ht], rfl⟩⟩
  next ht =>
  unfold fetch at h
  simp only at h
  split_ifs at h with hl hb
  · simp at h; exact .inl h.symm
  · split at h
    · simp at h
    · simp at h; exact .inl h.symm
    · next s hs =>
      split at hs <;> cases hs <;> (cases h; exact .inr ⟨r, hr, .inr (.inl ⟨ht, rfl⟩)⟩)
    · next i s hs =>
      split at hs <;> cases hs
      next rest hd =>
      cases h
      exact .inr ⟨r, hr, .inr (.inr ⟨ht, by simpa using hb, _, _, hd, rfl⟩)⟩

end Sys2Proof.Machine
end

