-- ==== Sys2Proof/Laws/View.lean ====
section
/-! SUPPORT. How levels and directions follow the events (R28), the latched view over one event list after another (R50),
and the cutting of a trace at its INITs (R82). -/

namespace Sys2Proof.Machine

variable {P : Type} [DecidableEq P] [LT P] [DecidableLT P]

/-- A level after one event. -/
theorem Pins.level_apply (ps : Pins P) (e : Event P) (q : P) :
    ((ps.apply e).get q).level =
      if e = .hi q then .high else if e = .lo q then .low else (ps.get q).level := by
  rw [Pins.get_apply]
  cases e <;> (simp; try split <;> simp)

/-- A direction after one event. -/
theorem Pins.dir_apply (ps : Pins P) (e : Event P) (q : P) :
    ((ps.apply e).get q).dir = if e = .cfg q then .output else (ps.get q).dir := by
  rw [Pins.get_apply]
  cases e <;> (simp; try split <;> simp)

/-- The latched view of one list after another. -/
theorem latchedView_append (h : Handle P) (ps : Pins P) (a b : List (Event P)) :
    latchedView h ps (a ++ b) = latchedView h ps a ++ latchedView h (ps.applyAll a) b := by
  induction a generalizing ps with
  | nil => rfl
  | cons e a ih =>
    simp only [List.cons_append, latchedView, Pins.applyAll_cons, ih]
    split <;> rfl

/-- Stability over one list after another. -/
theorem stableWhileHigh_append (h : Handle P) (ps : Pins P) (a b : List (Event P)) :
    stableWhileHigh h ps (a ++ b) =
      (stableWhileHigh h ps a && stableWhileHigh h (ps.applyAll a) b) := by
  induction a generalizing ps with
  | nil => rfl
  | cons e a ih => simp only [List.cons_append, stableWhileHigh, Pins.applyAll_cons, ih, Bool.and_assoc]

omit [DecidableEq P] [LT P] [DecidableLT P] in
/-- Cutting a trace at its INITs loses no event and changes no order. -/
theorem splitInitsFrom_flatten (after : Bool) (stretch es : List (Event P)) :
    (splitInitsFrom after stretch es).flatten = stretch ++ es := by
  induction es generalizing after stretch with
  | nil => simp [splitInitsFrom]
  | cons e es ih =>
    rw [splitInitsFrom]
    split <;> simp [ih]

omit [DecidableEq P] [LT P] [DecidableLT P] in
/-- Events without a `CFG` belong to the stretch they follow. -/
theorem splitInitsFrom_of_noCfg {es : List (Event P)} (hes : ∀ e ∈ es, e.isCfg = false) (after : Bool)
    (stretch : List (Event P)) : splitInitsFrom after stretch es = [stretch ++ es] := by
  induction es generalizing after stretch with
  | nil => simp [splitInitsFrom]
  | cons e es ih =>
    have he := hes e (by simp)
    rw [splitInitsFrom]
    simp only [he, Bool.false_and, Bool.false_eq_true, if_false]
    rw [ih (fun x hx => hes x (by simp [hx]))]
    simp

/-- The messages of one row of stretches after another. -/
theorem cutStretches_append {a b : List (List (Event P))} {ms ns : List Message}
    (ha : cutStretches a = some ms) (hb : cutStretches b = some ns) :
    cutStretches (a ++ b) = some (ms ++ ns) := by
  induction a generalizing ms with
  | nil =>
    simp only [cutStretches, Option.some.injEq] at ha
    simpa [← ha] using hb
  | cons x a ih =>
    simp only [cutStretches, List.cons_append] at ha ⊢
    cases hx : stretchMessages x with
    | none => simp [hx] at ha
    | some m =>
      cases hc : cutStretches a with
      | none => simp [hx, hc] at ha
      | some n =>
        simp only [hx, hc, Option.some.injEq] at ha
        rw [ih hc]
        simp [← ha]

end Sys2Proof.Machine
end

