-- ==== Sys2Proof/Tests/Slice0.lean ====
section
/-! SUPPORT. Tests and witnesses. Expected values are those of spec/95_test_vectors.md (V and P numbers) or written out from
the encodings of 30_encoding.md, never the model's own answers. `witness_<Name>` meets all hypotheses of the
statement `<Name>` together. -/

open Sys2Proof Sys2Proof.Machine

namespace Sys2Proof.Tests

/-! ## Helpers -/

/-- The next state of an outcome. -/
def after {S : Type} : Host.Outcome S Fault Refusal → Option S
  | .next t => some t
  | .fault _ => none
  | .refused _ => none

/-- From an evaluated next state to the form of the statements. -/
theorem exists_next {S : Type} {o : Host.Outcome S Fault Refusal} (h : (after o).isSome = true) :
    ∃ t, o = .next t := by
  cases o with
  | next t => exact ⟨t, rfl⟩
  | fault r => cases h
  | refused r => cases h

/-- `H0` of 95_test_vectors.md. -/
def h0 : Handle := ⟨2, 3, 4, 5, 6, 7⟩

/-- The second handle of V23 and V54. -/
def h1 : Handle := ⟨8, 9, 10, 11, 12, 13⟩

/-- The pins as INIT leaves them (V20). -/
def idlePins : Pins :=
  [(2, ⟨.output, .low⟩), (3, ⟨.output, .low⟩), (4, ⟨.output, .low⟩), (5, ⟨.output, .high⟩),
    (6, ⟨.output, .high⟩), (7, ⟨.output, .low⟩)]

/-- `seq = Ready` on `H0`, with an empty trace, so that a test's trace is the operation's own. -/
def ready : State := { State.reset with handle := some h0, seq := .ready, pins := idlePins }

/-- `ready` with a trace that explains its pins: the state after INIT from reset. -/
def booted : State :=
  { ready with trace := initEvents Config.reference h0, stream := [0x02] }

/-- `PE` of 95_test_vectors.md. -/
def pe : List Event := [.lo 3, .dus 1, .hi 3, .dus 1, .lo 3, .dus 100]

/-- The events of an operation issued in `ready`. -/
def events (i : Instr) : Option (List Event) := (after (exec i ready)).map State.trace

/-- The latched view of an operation issued in `ready`, a transfer `(rs, n)` as `16 · rs + n`. -/
def view (i : Instr) : Option (List (Option Nat)) :=
  (events i).map fun es => (latchedView h0 idlePins es).map fun t => t.map fun p =>
    16 * p.1.toNat + p.2.toNat

/-- A view all of whose levels are known. -/
def known (ns : List Nat) : Option (List (Option Nat)) := some (ns.map some)

/-! ## WellFormed: the one check, and the term it refuses -/

theorem test_print_of_256_is_not_wellFormed :
    (Instr.print (List.replicate 256 0x41)).wellFormed = false := by decide +kernel

theorem test_print_of_255_is_wellFormed :
    (Instr.print (List.replicate 255 0x41)).wellFormed = true := by decide +kernel

/-! ## Decode: words written out from R72, R81, R83 -/

theorem test_decode_init : decode [0b00000001, 12, 11, 5, 4, 3, 2] =
    .instr (.init 12 11 5 4 3 2) [] := by decide
theorem test_decode_clear : decode [0b00000010, 0b00000011] = .instr .clear [0b00000011] := by decide
theorem test_decode_setCursor : decode [0b00000011, 5, 200] = .instr (.setCursor 5 200) [] := by decide
theorem test_decode_print : decode [0b00000100, 1, 0x41, 2] = .instr (.print [0x41]) [2] := by decide
theorem test_decode_print_empty : decode [0b00000100, 0, 0x41] = .instr (.print []) [0x41] := by decide
theorem test_decode_printGlyph : decode [0b00000101, 0x83] = .instr (.printGlyph 0x83) [] := by decide
theorem test_decode_createGlyph : decode [0b00000110, 3, 0x1F, 1, 2, 4, 8, 0x10, 0x1F, 0] =
    .instr (.createGlyph 3 ⟨0x1F, 1, 2, 4, 8, 0x10, 0x1F, 0⟩) [] := by decide
theorem test_decode_reserved : decode [0x00, 2] = .reservedOpcode 0x00 ∧
    decode [0x07] = .reservedOpcode 0x07 ∧ decode [0xFF] = .reservedOpcode 0xFF := by decide
theorem test_decode_truncated : decode [0x03, 0x01] = .truncated ∧
    decode [0x04, 0x02, 0x48] = .truncated ∧ decode [0x04] = .truncated := by decide
theorem test_decode_resetNibble : decodeNibble ⟨false, 0b0011⟩ = some .resetNibble := by decide
theorem test_decode_mode4Nibble : decodeNibble ⟨false, 0b0010⟩ = some .mode4Nibble := by decide
theorem test_decode_functionSet : decodeBus ⟨false, 0b00101000⟩ =
    some (.functionSet false true false 0b00) := by decide
theorem test_decode_functionSet_x : decodeBus ⟨false, 0b00110110⟩ =
    some (.functionSet true false true 0b10) := by decide
theorem test_decode_displayControl : decodeBus ⟨false, 0b00001100⟩ =
    some (.displayControl true false false) := by decide
theorem test_decode_displayControl_cursor_blink : decodeBus ⟨false, 0b00001011⟩ =
    some (.displayControl false true true) := by decide
theorem test_decode_clearDisplay : decodeBus ⟨false, 0b00000001⟩ = some .clearDisplay := by decide
theorem test_decode_entryModeSet : decodeBus ⟨false, 0b00000110⟩ = some (.entryModeSet true false) ∧
    decodeBus ⟨false, 0b00000101⟩ = some (.entryModeSet false true) := by decide
theorem test_decode_setDdramAddr : decodeBus ⟨false, 0b11000101⟩ = some (.setDdramAddr 0x45) := by decide
theorem test_decode_setCgramAddr : decodeBus ⟨false, 0b01011000⟩ = some (.setCgramAddr 24) := by decide
theorem test_decode_writeData : decodeBus ⟨true, 0b01001000⟩ = some (.writeData 0x48) := by decide

/-- Return home, shift and 0x00 are no rows of the table (R70, R91). -/
theorem test_decode_unlisted_commands : decodeBus ⟨false, 0b00000010⟩ = none ∧
    decodeBus ⟨false, 0b00010100⟩ = none ∧ decodeBus ⟨false, 0⟩ = none ∧
    decodeNibble ⟨true, 0b0011⟩ = none := by decide

/-- The table's numbering: byte 0 is bits 7..0; operand bytes beyond `nbits` are zeros. -/
theorem test_decodeTableWord : decodeTableWord 56 0x07060504030201 = some (.init 2 3 4 5 6 7) ∧
    decodeTableWord 24 0x050103 = some (.setCursor 1 5) ∧
    decodeTableWord 16 0x0204 = some (.print [0, 0]) ∧
    decodeTableWord 8 0x00 = none := by decide +kernel

theorem test_withFetchWord : (State.reset.withFetchWord 24 0x050103).stream = [3, 1, 5] := by
  decide +kernel

/-! ## The Protocol Engine -/

theorem test_pulseEnable_V1 : events .pulseEnable = some pe := by decide +kernel

theorem test_pulseEnable_V2 : (after (exec .pulseEnable { ready with
      handle := some ⟨2, 11, 4, 5, 6, 7⟩
      config := { Config.reference with tEPre := 2, tEWidth := 3, tEPost := 150 } })).map State.trace =
    some [.lo 11, .dus 2, .hi 11, .dus 3, .lo 11, .dus 150] := by decide +kernel

theorem test_transmitNibble_V3 : events (.transmitNibble 0xA) =
    some ([.lo 4, .hi 5, .lo 6, .hi 7] ++ pe) := by decide +kernel

theorem test_transmitNibble_V5 :
    (after (exec (.transmitNibble 0x3) { ready with handle := some ⟨12, 11, 5, 4, 3, 2⟩ })).map
      State.trace =
    some [.hi 5, .hi 4, .lo 3, .lo 2, .lo 11, .dus 1, .hi 11, .dus 1, .lo 11, .dus 100] := by
  decide +kernel

theorem test_sendByte_V10 : events (.sendByte 0xAB false) =
    some ([.lo 2, .lo 4, .hi 5, .lo 6, .hi 7] ++ pe ++ [.hi 4, .hi 5, .lo 6, .hi 7] ++ pe) := by
  decide +kernel

theorem test_sendByte_V13 : view (.sendByte 0xF0 true) = known [0x1F, 0x10] := by decide +kernel

theorem test_sendCommand_V14 : view (.sendCommand 0x28) = known [0x2, 0x8] := by decide +kernel

theorem test_sendData_V14 : events (.sendData 0x48) =
    some ([.hi 2, .lo 4, .lo 5, .hi 6, .lo 7] ++ pe ++ [.lo 4, .lo 5, .lo 6, .hi 7] ++ pe) := by
  decide +kernel

/-! ## Bus words: what R83 spells, as two transfers (R80) or one (R81) -/

theorem test_resetNibble : view .resetNibble = known [0x3] := by decide +kernel
theorem test_mode4Nibble : view .mode4Nibble = known [0x2] := by decide +kernel
theorem test_functionSet : view (.functionSet true false true 0b01) = known [0x3, 0x5] := by decide +kernel
theorem test_displayControl : view (.displayControl true false true) = known [0x0, 0xD] := by
  decide +kernel
theorem test_clearDisplay : view .clearDisplay = known [0x0, 0x1] := by decide +kernel
theorem test_entryModeSet : view (.entryModeSet true false) = known [0x0, 0x6] := by decide +kernel
theorem test_setDdramAddr : view (.setDdramAddr 0x45) = known [0xC, 0x5] := by decide +kernel
theorem test_setCgramAddr : view (.setCgramAddr 24) = known [0x5, 0x8] := by decide +kernel
theorem test_writeData : view (.writeData 0x69) = known [0x16, 0x19] := by decide +kernel

/-! ## INIT -/

theorem test_init_V20 : (after (exec (.init 2 3 4 5 6 7) State.reset)).map
      (fun t => { t with trace := t.trace.take 14 }) =
    some { State.reset with seq := .ready, handle := some h0, pins := idlePins, trace :=
      [.cfg 2, .cfg 3, .cfg 4, .cfg 5, .cfg 6, .cfg 7, .lo 2, .lo 3, .dms 50,
        .hi 4, .hi 5, .lo 6, .lo 7, .lo 3] } := by decide +kernel

theorem test_init_V20_duration_and_counts :
    let es := initEvents Config.reference h0
    leastMicros es = 64428 ∧ es.count (.hi 3) = 14 ∧ es.count (.lo 3) = 29 ∧
      es.filter (fun e => match e with | .dms _ => true | _ => false) =
        [.dms 50, .dms 5, .dms 5, .dms 1, .dms 2] := by decide +kernel

/-! ## The Display API, in `ready` -/

theorem test_clear_V30 : events .clear =
    some ([.lo 2, .lo 4, .lo 5, .lo 6, .lo 7] ++ pe ++ [.hi 4, .lo 5, .lo 6, .lo 7] ++ pe ++ [.dms 2] ++
      [.lo 2, .lo 4, .lo 5, .lo 6, .hi 7] ++ pe ++ [.lo 4, .lo 5, .lo 6, .lo 7] ++ pe) := by
  decide +kernel

theorem test_setCursor_V33 :
    view (.setCursor 1 5) = known [0xC, 0x5] ∧ view (.setCursor 0 16) = known [0x8, 0xF] ∧
      view (.setCursor 2 3) = known [0xC, 0x3] ∧ view (.setCursor 255 255) = known [0xC, 0xF] := by
  decide +kernel

theorem test_setCursor_V36 :
    ddramByte { Config.reference with rowCount := 1 }
      (ddramAddress { Config.reference with rowCount := 1 } 1 5) = 0x85 ∧
    ddramByte { Config.reference with columnCount := 40 }
      (ddramAddress { Config.reference with columnCount := 40 } 1 40) = 0xE7 := by decide

theorem test_print_V40_V41 : events (.print []) = some [] ∧
    view (.print [0x48, 0x69]) = known [0x14, 0x18, 0x16, 0x19] := by decide +kernel

theorem test_print_V42 : view (.print [0x00, 0x20, 0xFF]) =
    known [0x10, 0x10, 0x12, 0x10, 0x1F, 0x1F] := by decide +kernel

theorem test_printGlyph_V42 : view (.printGlyph 0x83) = known [0x18, 0x13] := by decide +kernel

theorem test_createGlyph_V43 :
    view (.createGlyph 3 ⟨0x1F, 0x01, 0x02, 0x04, 0x08, 0x10, 0x1F, 0x00⟩) =
    known [0x5, 0x8, 0x11, 0x1F, 0x10, 0x11, 0x10, 0x12, 0x10, 0x14, 0x10, 0x18, 0x11, 0x10, 0x11, 0x1F,
      0x10, 0x10, 0x8, 0x0] := by decide +kernel

theorem test_createGlyph_V46 :
    view (.createGlyph 255 ⟨0xFF, 0xE0, 0x1F, 0x00, 0x00, 0x00, 0x00, 0x80⟩) =
    known [0x7, 0x8, 0x1F, 0x1F, 0x1E, 0x10, 0x11, 0x1F, 0x10, 0x10, 0x10, 0x10, 0x10, 0x10, 0x10, 0x10,
      0x18, 0x10, 0x8, 0x0] := by decide +kernel

/-! ## Refusals and faults -/

/-- V50, and the first operation of P5. -/
theorem test_step_V50 : after (step { State.reset with stream := [0x02] }) =
    some { State.reset with refused := true, ground := some .notReady } := by decide +kernel

theorem test_step_V51 : after (step { State.reset with stream := [1, 2, 3, 4, 5, 6, 6] }) =
    some { State.reset with refused := true, ground := some .pinsNotDistinct } := by decide +kernel

theorem test_step_V52 : after (step { State.reset with stream := [0x07] }) =
    some { State.reset with refused := true, ground := some .malformed } := by decide +kernel

theorem test_step_V53 :
    (after (step { State.reset with stream := [1, 2, 3, 4, 5, 6, 7], failing := [.dms 50] })).map
      (fun t => (t.seq, t.busy, t.providerFault, t.trace)) =
    some (.unpowered, true, true,
      [.cfg 2, .cfg 3, .cfg 4, .cfg 5, .cfg 6, .cfg 7, .lo 2, .lo 3]) := by decide +kernel

theorem test_init_V54 :
    (after (exec (.init 7 9 10 11 12 13) { State.reset with foreignPins := h0.pins })).map
      (fun t => (t.trace, t.ground)) = some ([], some .pinHeld) := by decide +kernel

/-! ## Programs: their text is their stream -/

theorem test_assemble_P1 :
    (assemble "init 2, 3, 4, 5, 6, 7\nprint \"Hi\"".toList).bind hostStream =
    some [0x01, 0x02, 0x03, 0x04, 0x05, 0x06, 0x07, 0x04, 0x02, 0x48, 0x69] := by decide +kernel

theorem test_assemble_P3 :
    (assemble "set_cursor 5, 200      ; saturates to (1, 15)\nclear\n".toList).bind hostStream =
    some [0x03, 0x05, 0xC8, 0x02] := by decide +kernel

/-- 256 characters are an operation that no stream spells (log 17); 255 are. -/
theorem test_hostStream_bounds : hostStream [.print (List.replicate 256 0x41)] = none ∧
    (hostStream [.print (List.replicate 255 0x41)]).isSome = true := by decide +kernel

theorem test_assemble_escapes :
    assemble "print \"\\x83\\\"\\\\\"".toList = some [.print [0x83, 0x22, 0x5C]] ∧
      assemble "print_glyph 256".toList = none ∧ assemble "set_cursor 1".toList = none := by
  decide +kernel

/-! ## Views and interleaving -/

/-- The words of an INIT (R82, R84). -/
def initWords : List Message :=
  [.single ⟨false, 0x3⟩, .single ⟨false, 0x3⟩, .single ⟨false, 0x3⟩, .single ⟨false, 0x2⟩,
    .word ⟨false, 0x28⟩, .word ⟨false, 0x0C⟩, .word ⟨false, 0x01⟩, .word ⟨false, 0x80⟩, .word ⟨false, 0x06⟩]

/-- R82: an INIT that stopped after three transfers has sent three single-nibble words. -/
theorem test_cutInit_of_three : cutInit [some (false, 0x3), some (false, 0x3), some (false, 0x3)] =
    some [.single ⟨false, 0x3⟩, .single ⟨false, 0x3⟩, .single ⟨false, 0x3⟩] := by decide

/-- R180: a byte that stopped between its nibbles is half a word. -/
theorem test_pairUp_of_three : pairUp [some (true, 0x4), some (true, 0x8), some (true, 0x6)] =
    some [.word ⟨true, 0x48⟩, .half ⟨true, 0x6⟩] := by decide

/-- R82: "until the next INIT begins", here on other pins (V23), then a CLEAR on those. -/
theorem test_messages_of_two_inits :
    messages (initEvents Config.reference h0 ++ printEvents [0x41] Config.reference h0 ++
      initEvents Config.reference h1 ++ clearEvents Config.reference h1) =
    some (initWords ++ [.word ⟨true, 0x41⟩] ++ initWords ++ [.word ⟨false, 0x01⟩, .word ⟨false, 0x80⟩]) := by
  decide +kernel

/-- Log 21: the second INIT takes the high RS of the first handle as its E. R50 on the whole trace takes
one pair more at its first `LO(E)`, which `messages` leaves out. -/
theorem test_messages_of_init_on_a_high_enable :
    let h : Handle := ⟨3, 2, 4, 5, 6, 7⟩
    let first := initEvents Config.reference h0 ++ printEvents [0x41] Config.reference h0
    (latchedView h (Pins.applyAll [] first) (initEvents Config.reference h)).length = 15 ∧
      messages (first ++ initEvents Config.reference h) =
        some (initWords ++ [.word ⟨true, 0x41⟩] ++ initWords) := by decide +kernel

/-- Two instances, one with an INIT in progress, the other about to begin its own on other pins (V54). -/
def fleet : Fleet where
  members := [(issue id (.init 2 3 4 5 6 7) State.reset),
    ⟨{ State.reset with stream := [1, 8, 9, 10, 11, 12, 13] }, []⟩]
  trace := []

/-- R190, D1: the events of two INITs interleave one by one. -/
theorem test_fleet_events_interleave : (after (fleet.run [0, 1, 1, 0, 1])).map Fleet.trace =
    some [(0, .cfg 2), (1, .cfg 8), (0, .cfg 3), (1, .cfg 9)] := by decide +kernel

/-- R26, R27: between two of its events an operation is in progress, and `seq` is where R121 has it. -/
theorem test_tick_of_init :
    let r := Running.ticks 10 (issue id (.init 2 3 4 5 6 7) State.reset)
    r.state.busy = true ∧ r.state.seq = .unknownMode ∧ r.state.trace = initStep1 h0 ++ [.dms 50] := by
  decide +kernel

/-! ## Witnesses of the statements' hypotheses -/

/-- The two branches meet at the bounds: one millisecond below `T_POWERUP_MS`'s (V22), and equal pulse waits. -/
theorem witness_StepAnswersNextExactlyWhenConfigurationLegal :
    (∀ c ∈ [Config.reference, { Config.reference with tEPost := 2 },
        { Config.reference with columnCount := 64 }], Config.legal c) ∧
      ∀ c ∈ [{ Config.reference with tPowerupMs := 49 }, { Config.reference with tEPost := 1 },
        { Config.reference with rowCount := 3 }, { Config.reference with columnCount := 65 }],
        ¬ Config.legal c := by decide

theorem witness_StepRunsTheDecodedOperation :
    booted.config.legal ∧ booted.busy = false ∧ decode booted.stream = .instr .clear [] := by decide

theorem witness_StepConsumesOneWholeOperation :
    let s := { ready with stream := [0x04, 0x01, 0x41, 0x00] }
    s.config.legal ∧ s.busy = false ∧ (Instr.print [0x41]).layer = .host ∧
      (Instr.print [0x41]).wellFormed = true ∧ s.stream = encode (.print [0x41]) ++ [0x00] := by decide

theorem witness_StepWaitsWhenIdleOrBusy :
    (State.reset.config.legal ∧ State.reset.stream = []) ∧
      { booted with busy := true, providerFault := true }.busy = true := by decide

/-- The reserved opcodes' edges 0x00, 0x07 and 0xFF; the shortest and the longest proper beginnings. -/
theorem witness_MalformedRequestIsRefused :
    (∀ b ∈ [0x00#8, 0x07#8, 0xFF#8], b.toNat = 0 ∨ 7 ≤ b.toNat) ∧
      (0 < 1 ∧ 1 < (encode (.print [])).length ∧ [0x04#8] = (encode (.print [])).take 1) ∧
      (9 < (encode (.createGlyph 1 ⟨0, 1, 2, 3, 4, 5, 6, 7⟩)).length ∧
        [6#8, 1, 0, 1, 2, 3, 4, 5, 6] = (encode (.createGlyph 1 ⟨0, 1, 2, 3, 4, 5, 6, 7⟩)).take 9) := by
  decide

theorem witness_HostOperationsDecodeFromTheirEncoding :
    (Instr.init 0 255 0 0 0 0).layer = .host ∧ (Instr.print (List.replicate 255 0)).layer = .host ∧
      (Instr.print (List.replicate 255 0)).wellFormed = true := by decide +kernel

theorem witness_DecodedBytesAreTheEncoding : decode [0x05, 0xFF, 0x00] = .instr (.printGlyph 0xFF) [0x00] := by
  decide

theorem witness_PulseEnableEmitsLowHighLow :
    ready.engineOn h0 ∧ ready.quiet (pulseEnable ready.config h0) := by decide

theorem witness_TransmitNibbleDrivesD4ToD7ThenPulses :
    ready.engineOn h0 ∧ ready.quiet (transmitNibble ready.config h0 0xF) ∧
      ready.quiet (transmitNibble ready.config h0 0x0) := by decide +kernel

theorem witness_SendByteSetsRsThenSendsHighNibbleFirst :
    ready.engineOn h0 ∧ ready.quiet (sendByte ready.config h0 0x0F true) := by decide +kernel

theorem witness_SendCommandAndSendDataFixIsData :
    ready.engineOn h0 ∧ h0.distinct ∧ ready.pins.wf ∧ ready.quiet (sendByte ready.config h0 0x28 false) ∧
      ready.quiet (sendByte ready.config h0 0x48 true) := by decide +kernel

theorem witness_SingleNibbleWordsAreOneNibble :
    ready.engineOn h0 ∧ ready.quiet (transmitNibble ready.config h0 0x3) ∧
      ready.quiet (transmitNibble ready.config h0 0x2) := by decide +kernel

/-- One word for each of the seven clauses. -/
theorem witness_BusWordsGoOutAsOneSendByte :
    ready.engineOn h0 ∧ (∀ db ∈ [0x28#8, 0x0C#8, 0x01#8, 0x06#8, 0xFF#8, 0x7F#8],
      ready.quiet (sendByte ready.config h0 db false)) ∧
      ready.quiet (sendByte ready.config h0 0xFF true) := by decide +kernel

theorem witness_EngineWithoutHandleIsRefused :
    Instr.pulseEnable.layer ≠ .host ∧ State.reset.handle = none := by decide

theorem witness_InitRunsTheWholeHandshake :
    State.reset.acceptsInit h0 ∧ State.reset.quiet (initEvents State.reset.config h0) := by decide +kernel

/-- From reset, and as a second INIT with other pins (V23). -/
theorem witness_InitLeavesThePinsIdle :
    ready.pins.wf ∧ ready.config.byteEntryMode = 0x06 ∧ ready.acceptsInit h1 ∧
      ready.quiet (initEvents ready.config h1) := by decide +kernel

/-- From reset; and after another INIT and a PRINT, whose RS, pin 2, is left high, as the new E (log 21). -/
theorem witness_InitLatchesFourteenTransfers :
    (standardBytes Config.reference ∧ h0.distinct ∧ Pins.wf ([] : Pins) ∧
      (Pins.get [] h0.en).level ≠ .high) ∧
    (Handle.distinct ⟨3, 2, 4, 5, 6, 7⟩ ∧
      let trace := initEvents Config.reference h0 ++ printEvents [0x78] Config.reference h0
      (Pins.get (Pins.applyAll [] trace) 2).level = .high ∧ (messages trace).isSome = true ∧
        trace.getLast? = some (.dus 100)) := by decide +kernel

theorem witness_ClearSendsClearWaitsAndHomes :
    ready.readyOn h0 ∧ ready.quiet (clearEvents ready.config h0) := by decide +kernel

theorem witness_SetCursorSendsTheSaturatedAddress :
    ready.readyOn h0 ∧ ready.quiet (setCursorEvents 2 16 ready.config h0) := by decide +kernel

/-- Both clauses, at the first operand each binds, and both at once. -/
theorem witness_SetCursorSaturates :
    ready.config.rowCount ≤ (2#8).toNat ∧ ready.config.columnCount ≤ (16#8).toNat ∧
      ready.config.columnCount ≤ (255#8).toNat := by decide

/-- The last cell of each row. -/
theorem witness_SetCursorAddressOfEachCell :
    ready.readyOn h0 ∧ ready.config.legal ∧ ready.config.byteDdramBase = 0x80 ∧
      (1#8).toNat < ready.config.rowCount ∧ (15#8).toNat < ready.config.columnCount ∧
      ready.quiet (sendCommand ready.config h0 (BitVec.ofNat 8 (0x80 + (15 + 0x40 * 1)))) ∧
      ready.quiet (sendCommand ready.config h0 (BitVec.ofNat 8 (0x80 + (15 + 0x40 * 0)))) := by
  decide +kernel

theorem witness_PrintSendsEachCharacter :
    ready.readyOn h0 ∧ h0.distinct ∧ ready.pins.wf ∧ [0x48#8, 0x69] ≠ [] ∧ ready.quiet (printEvents [0x48, 0x69] ready.config h0) := by decide +kernel

theorem witness_PrintOfTwoPiecesIsPrintOfTheWhole :
    ready.readyOn h0 ∧ ready.quiet (printEvents [0x48] ready.config h0) ∧
      ready.quiet (printEvents [0x69, 0x21] ready.config h0) ∧
      ∃ t, exec (.print [0x48]) ready = .next t :=
  ⟨by decide, by decide +kernel, by decide +kernel, exists_next rfl⟩

theorem witness_PrintGlyphIsPrintOfOneCode :
    ready.readyOn h0 ∧ h0.distinct ∧ ready.pins.wf ∧ ready.quiet (sendData ready.config h0 0xFF) := by decide +kernel

theorem witness_CreateGlyphSendsSlotRowsAndHome :
    ready.readyOn h0 ∧
      ready.quiet (createGlyphEvents 255 ⟨0xFF, 0xE0, 0x1F, 0, 0, 0, 0, 0x80⟩ ready.config h0) := by
  decide +kernel

theorem witness_CreateGlyphMasksTheIndex :
    (8#8).toNat % 8 = (0#8).toNat % 8 ∧ (11#8).toNat % 8 = (3#8).toNat % 8 ∧
      (255#8).toNat % 8 = (7#8).toNat % 8 := by decide

theorem witness_RsAndEAfterTheDisplayApi :
    ready.readyOn h0 ∧ h0.distinct ∧ ready.pins.wf ∧
      ((after (exec .clear ready)).map State.providerFault = some false) ∧
      ((after (exec (.setCursor 0 0) ready)).map State.providerFault = some false) ∧
      ((after (exec (.createGlyph 0 ⟨0, 0, 0, 0, 0, 0, 0, 0⟩) ready)).map State.providerFault =
        some false) ∧
      ((after (exec (.printGlyph 0) ready)).map State.providerFault = some false) ∧
      ((after (exec (.print [0x41]) ready)).map State.providerFault = some false) := by decide +kernel

theorem witness_HostOperationWhileBusyIsRefused :
    (Instr.init 2 2 2 2 2 2).layer = .host ∧ { ready with busy := true }.busy = true := by decide

theorem witness_DisplayApiBeforeReadyIsRefused :
    Instr.clear.layer = .host ∧ (∀ rs en d4 d5 d6 d7, Instr.clear ≠ .init rs en d4 d5 d6 d7) ∧
      State.reset.busy = false ∧ State.reset.seq ≠ .ready :=
  ⟨rfl, fun _ _ _ _ _ _ h => Instr.noConfusion h, rfl, by decide⟩

theorem witness_InitWithEqualPinsIsRefused :
    State.reset.busy = false ∧ ¬ [2#8, 3, 4, 5, 6, 6].Nodup := by decide

theorem witness_InitWithHeldPinIsRefused :
    let s := { State.reset with foreignPins := h0.pins }
    s.busy = false ∧ [7#8, 9, 10, 11, 12, 13].Nodup ∧
      ∃ p ∈ [7#8, 9, 10, 11, 12, 13], p ∈ s.foreignPins := by decide

/-- The clear wait fails: one witness for the operation that waits, one for each that does not. -/
theorem witness_DisplayApiStopsAtAProviderFailure :
    let s := { ready with failing := [.dms 2, .hi 2, .hi 7] }
    let c := s.config
    s.readyOn h0 ∧ s.quiet [.lo 2] ∧ s.failing.contains (.dms 2) = true ∧
      clearEvents c h0 =
        (sendCommand c h0 0x01) ++ Event.dms 2 :: (sendCommand c h0 0x80) ∧
      s.quiet (sendCommand c h0 0x01) ∧
      setCursorEvents 0 0 c h0 = [.lo 2, .lo 4, .lo 5, .lo 6] ++ Event.hi 7 ::
        (setCursorEvents 0 0 c h0).drop 5 ∧
      printEvents [0x48] c h0 = [] ++ Event.hi 2 :: (printEvents [0x48] c h0).drop 1 ∧
      printGlyphEvents 3 c h0 = [] ++ Event.hi 2 :: (printGlyphEvents 3 c h0).drop 1 ∧
      createGlyphEvents 0 ⟨0, 0, 0, 0, 0, 0, 0, 0⟩ c h0 =
        (sendCommand c h0 0x40) ++ Event.hi 2 ::
          (createGlyphEvents 0 ⟨0, 0, 0, 0, 0, 0, 0, 0⟩ c h0).drop 22 ∧
      s.quiet (sendCommand c h0 0x40) := by decide +kernel

/-- The first transition (V53) and the sixth. -/
theorem witness_InitStopsAtAProviderFailure :
    (let s := { State.reset with failing := [.dms 50] }
      let phases := initPhases s.config h0
      s.acceptsInit h0 ∧ phases = [] ++ (initStep1 h0 ++ Event.dms 50 :: [], .unknownMode) :: phases.drop 1 ∧
        s.quiet (([] : List (List Event × Seq)).flatMap Prod.fst ++ initStep1 h0) ∧
        s.failing.contains (.dms 50) = true) ∧
    (let s := { State.reset with failing := [.dms 2] }
      let phases := initPhases s.config h0
      let c := s.config
      s.acceptsInit h0 ∧ phases = phases.take 5 ++
        (sendCommand c h0 0x01 ++ Event.dms 2 :: sendCommand c h0 0x80, .cleared) :: phases.drop 6 ∧
        s.quiet ((phases.take 5).flatMap Prod.fst ++ sendCommand c h0 0x01) ∧
        s.failing.contains (.dms 2) = true) := by decide +kernel

theorem witness_EngineStopsAtAProviderFailure :
    let s := { ready with failing := [.dus 1] }
    Instr.pulseEnable.layer ≠ .host ∧ s.engineOn h0 ∧
      after (exec .pulseEnable { s with failing := [] }) =
        some (State.emitted { s with failing := [] }
          ([.lo 3] ++ Event.dus 1 :: [.hi 3, .dus 1, .lo 3, .dus 100])) ∧
      s.quiet [.lo 3] ∧ s.failing.contains (.dus 1) = true := by decide +kernel

theorem witness_ShadowFollowsTheEvents : idlePins.wf := by decide

theorem witness_CanonicalShadowsThatReadAlikeAreEqual :
    idlePins.wf ∧ (idlePins.set 9 ⟨.output, .high⟩).wf ∧
      ∀ p, ((idlePins.set 9 ⟨.output, .high⟩).set 9 .untouched).get p = idlePins.get p := by
  refine ⟨by decide, by decide, fun p => ?_⟩
  rw [show (idlePins.set 9 ⟨.output, .high⟩).set 9 .untouched = idlePins by decide]

theorem witness_SendByteLatchesHighThenLow :
    h0.distinct ∧ Pins.wf ([] : Pins) ∧ (Pins.get [] h0.en).level ≠ .high ∧ idlePins.wf ∧
      (idlePins.get h0.en).level ≠ .high := by decide

theorem witness_DisplayApiSendsTheseBusWords :
    h0.distinct ∧ idlePins.wf ∧ (idlePins.get h0.en).level ≠ .high := by decide

/-- One witness for each of the three operations. -/
theorem witness_LastAddressToldIsHome :
    standardBytes Config.reference ∧ h0.distinct ∧ idlePins.wf ∧ (idlePins.get h0.en).level ≠ .high ∧
      (cutInit (latchedView h0 idlePins (initEvents Config.reference h0))).isSome = true ∧
      (pairUp (latchedView h0 idlePins (clearEvents Config.reference h0))).isSome = true ∧
      (pairUp (latchedView h0 idlePins (createGlyphEvents 3 ⟨1, 2, 3, 4, 5, 6, 7, 8⟩ Config.reference
        h0))).isSome = true := by decide +kernel

theorem witness_DataPinsAreStableWhileEnableIsHigh :
    Instr.clear.layer = .host ∧ h0.distinct ∧ ready.pins.wf ∧ (ready.pins.get h0.en).level ≠ .high ∧
      (after (exec .clear ready)).map State.handle = some (some h0) := by decide +kernel

theorem witness_LatchedViewIgnoresOtherPins : Pins.wf idlePins := by decide

theorem booted_inv : booted.Inv := by
  refine ⟨by decide, ⟨by decide, by decide +kernel⟩, rfl, rfl, fun _ => ?_⟩
  show _ ∧ _ ∧ _
  decide +kernel

theorem witness_StepKeepsTheInvariant : booted.Inv ∧ ∃ t, step booted = .next t :=
  ⟨booted_inv, exists_next (by decide +kernel)⟩

theorem witness_StepKeepsTheFraming :
    booted.Inv ∧ standardBytes booted.config ∧ booted.framed ∧ ∃ t, step booted = .next t := by
  refine ⟨booted_inv, by decide, fun _ => ⟨⟨[.single ⟨false, 3⟩, .single ⟨false, 3⟩, .single ⟨false, 3⟩,
    .single ⟨false, 2⟩, .word ⟨false, 0x28⟩, .word ⟨false, 0x0C⟩, .word ⟨false, 0x01⟩, .word ⟨false, 0x80⟩,
    .word ⟨false, 0x06⟩], by decide +kernel, by decide +kernel⟩, fun h hh => ?_, fun e he => ?_⟩,
    exists_next (by decide +kernel)⟩
  · cases hh
    decide +kernel
  · rw [show booted.trace.getLast? = some (.dus 100) by decide +kernel] at he
    cases he
    rfl

theorem witness_StepOnlyAppendsToTheTrace : ∃ t, step booted = .next t :=
  exists_next (by decide +kernel)

/-- A run in which both marks are set: a refusal, then a provider failure. -/
theorem witness_MarksAreSticky :
    let s := { booted with refused := true, ground := some .notReady, providerFault := true, busy := true }
    (∃ t, step s = .next t) ∧ s.refused = true ∧ s.providerFault = true :=
  ⟨exists_next (by decide +kernel), rfl, rfl⟩

theorem witness_OnlyInitWritesHandleAndSeq :
    (∀ rs en d4 d5 d6 d7, Instr.clear ≠ .init rs en d4 d5 d6 d7) ∧ ∃ t, exec .clear ready = .next t :=
  ⟨fun _ _ _ _ _ _ h => Instr.noConfusion h, exists_next rfl⟩

theorem witness_StepKeepsConfigurationAndEnvironment : ∃ t, step booted = .next t :=
  exists_next (by decide +kernel)

theorem witness_DelaysAreTheParametersAndCfgIsInits :
    (∃ t, exec (.init 2 3 4 5 6 7) State.reset = .next t) ∧ (∃ t, exec .clear ready = .next t) ∧
      ∀ rs en d4 d5 d6 d7, Instr.clear ≠ .init rs en d4 d5 d6 d7 :=
  ⟨exists_next rfl, exists_next rfl, fun _ _ _ _ _ _ h => Instr.noConfusion h⟩

/-- V23: after the second INIT, pin 2 of the first handle is not of the new one. -/
theorem witness_OtherPinsStayAsTheyWere :
    ready.pins.wf ∧ (after (exec (.init 8 9 10 11 12 13) ready)).map State.handle = some (some h1) ∧
      (2 : PinId) ∉ h1.pins := by decide +kernel

/-- Pins named by natural numbers, and by lists. -/
theorem witness_PinIdentifiersAreOpaque :
    (∀ p q : PinId, p.toNat = q.toNat → p = q) ∧ ∀ p q : PinId, [p] = [q] → p = q :=
  ⟨fun _ _ => BitVec.eq_of_toNat_eq, fun _ _ h => List.head_eq_of_cons_eq h⟩

theorem fleet_step : (∃ g, fleet.step 0 = .next g) ∧ ∃ g, fleet.step 1 = .next g :=
  ⟨exists_next (by decide +kernel), exists_next (by decide +kernel)⟩

theorem witness_FleetStepLeavesTheOtherInstances : (∃ g, fleet.step 1 = .next g) ∧ 0 ≠ 1 :=
  ⟨fleet_step.2, by decide⟩

theorem fleet_pinsApart : fleet.pinsApart := by unfold Fleet.pinsApart; decide +kernel

theorem witness_FleetStepKeepsPinsApart : fleet.pinsApart ∧ ∃ g, fleet.step 1 = .next g :=
  ⟨fleet_pinsApart, fleet_step.2⟩

/-- Before the first event, and with the first instance's first two events emitted. -/
theorem witness_FleetStepKeepsTheInvariant :
    (fleet.Inv ∧ ∃ g, fleet.step 0 = .next g) ∧
      ∃ f, fleet.run [0, 1, 1] = .next f ∧ f.trace = [(0, .cfg 2), (1, .cfg 8)] ∧
        ∃ g, f.step 0 = .next g := by
  refine ⟨⟨⟨fleet_pinsApart, fun r hr e he p hp => ?_, fun k r hk => ?_⟩, fleet_step.1⟩, ?_⟩
  · simp only [fleet, List.mem_cons, List.not_mem_nil, or_false] at hr
    rcases hr with rfl | rfl
    · have h : (issue id (.init 2 3 4 5 6 7) State.reset).todo.all (fun m => match m with
          | .emit e => e.pin.all (fun p => h0.pins.contains p)
          | .reach _ => true
          | .done => true) = true := by decide +kernel
      have := List.all_eq_true.1 h _ he
      simp only [hp, Option.all_some, List.contains_iff_mem] at this
      exact this
    · cases he
  · match k, hk with
    | 0, hk => cases hk; rfl
    | 1, hk => cases hk; rfl
    | k + 2, hk => simp [fleet] at hk
  · exact ⟨_, rfl, by decide +kernel, exists_next (by decide +kernel)⟩

end Sys2Proof.Tests
end

/-! # Scope and memory map: pin identifiers are opaque (R10, R54)

A simulation between a state and the same state under other names of its pins: every operation keeps
`State.RenamesTo`, because the block reads no more of an identifier than whether it equals another. -/

namespace Sys2Proof.Machine

section Renaming

variable {P Q : Type}

/-! ## Other names for the events of an operation -/

theorem Event.rename_injective {f : P → Q} (hf : Function.Injective f) :
    Function.Injective (Event.rename f)
  | .cfg _, .cfg _, h => congrArg Event.cfg (hf (Event.cfg.inj h))
  | .hi _, .hi _, h => congrArg Event.hi (hf (Event.hi.inj h))
  | .lo _, .lo _, h => congrArg Event.lo (hf (Event.lo.inj h))
  | .dms _, .dms _, h => congrArg Event.dms (Event.dms.inj h)
  | .dus _, .dus _, h => congrArg Event.dus (Event.dus.inj h)

@[simp] theorem Event.rename_drive (f : P → Q) (p : P) (b : Bool) :
    (drive p b).rename f = drive (f p) b := by cases b <;> rfl

@[simp] theorem Handle.rename_rs (f : P → Q) (h : Handle P) : (h.rename f).rs = f h.rs := rfl
@[simp] theorem Handle.rename_en (f : P → Q) (h : Handle P) : (h.rename f).en = f h.en := rfl
@[simp] theorem Handle.rename_d4 (f : P → Q) (h : Handle P) : (h.rename f).d4 = f h.d4 := rfl
@[simp] theorem Handle.rename_d5 (f : P → Q) (h : Handle P) : (h.rename f).d5 = f h.d5 := rfl
@[simp] theorem Handle.rename_d6 (f : P → Q) (h : Handle P) : (h.rename f).d6 = f h.d6 := rfl
@[simp] theorem Handle.rename_d7 (f : P → Q) (h : Handle P) : (h.rename f).d7 = f h.d7 := rfl
@[simp] theorem Handle.pins_rename (f : P → Q) (h : Handle P) : (h.rename f).pins = h.pins.map f := rfl

theorem pulseEnable_rename (f : P → Q) (c : Config) (h : Handle P) :
    pulseEnable c (h.rename f) = (pulseEnable c h).map (Event.rename f) := rfl

theorem transmitNibble_rename (f : P → Q) (v : Nibble) (c : Config) (h : Handle P) :
    transmitNibble c (h.rename f) v = (transmitNibble c h v).map (Event.rename f) := by
  simp [transmitNibble, pulseEnable_rename]

theorem sendByte_rename (f : P → Q) (value : Byte) (isData : Bool) (c : Config) (h : Handle P) :
    sendByte c (h.rename f) value isData = (sendByte c h value isData).map (Event.rename f) := by
  simp [sendByte, transmitNibble_rename]

theorem sendCommand_rename (f : P → Q) (value : Byte) (c : Config) (h : Handle P) :
    sendCommand c (h.rename f) value = (sendCommand c h value).map (Event.rename f) :=
  sendByte_rename f value false c h

theorem sendData_rename (f : P → Q) (value : Byte) (c : Config) (h : Handle P) :
    sendData c (h.rename f) value = (sendData c h value).map (Event.rename f) :=
  sendByte_rename f value true c h

theorem sendWord_rename (f : P → Q) (w : BusWord) (c : Config) (h : Handle P) :
    sendWord c (h.rename f) w = (sendWord c h w).map (Event.rename f) :=
  sendByte_rename f w.db w.rs c h

theorem clearEvents_rename (f : P → Q) (c : Config) (h : Handle P) :
    clearEvents c (h.rename f) = (clearEvents c h).map (Event.rename f) := by
  simp [clearEvents, sendCommand_rename, Event.rename]

theorem setCursorEvents_rename (f : P → Q) (row column : Byte) (c : Config) (h : Handle P) :
    setCursorEvents row column c (h.rename f) = (setCursorEvents row column c h).map (Event.rename f) :=
  sendCommand_rename f _ c h

theorem printEvents_rename (f : P → Q) (text : List Byte) (c : Config) (h : Handle P) :
    printEvents text c (h.rename f) = (printEvents text c h).map (Event.rename f) := by
  rw [printEvents, printEvents, List.map_flatMap]
  exact List.flatMap_congr fun code _ => sendData_rename f code c h

theorem createGlyphEvents_rename (f : P → Q) (index : Byte) (bitmap : Bitmap) (c : Config)
    (h : Handle P) :
    createGlyphEvents index bitmap c (h.rename f) =
      (createGlyphEvents index bitmap c h).map (Event.rename f) := by
  have hrows := printEvents_rename f bitmap.rows c h
  rw [printEvents, printEvents] at hrows
  simp only [createGlyphEvents, sendCommand_rename, hrows, List.map_append]

/-- One transition of INIT (R121) under other names. -/
def renamePhase (f : P → Q) (phase : List (Event P) × Seq) : List (Event Q) × Seq :=
  (phase.1.map (Event.rename f), phase.2)

theorem initPhases_rename (f : P → Q) (c : Config) (h : Handle P) :
    initPhases c (h.rename f) = (initPhases c h).map (renamePhase f) := by
  simp [initPhases, initStep1, initStep3, renamePhase, transmitNibble_rename, sendCommand_rename,
    clearEvents_rename, Event.rename]

/-! ## Every plan is the same under other names -/

/-- `events'` on a handle under the names `f` are `events` on the handle, under those names. -/
def EventsRenameTo (f : P → Q) (events : Config → Handle P → List (Event P))
    (events' : Config → Handle Q → List (Event Q)) : Prop :=
  ∀ c h, events' c (h.rename f) = (events c h).map (Event.rename f)

/-- Two plans of one operation: the second addresses the pins under the names `f`. -/
inductive Plan.RenamesTo (f : P → Q) : Plan P → Plan Q → Prop
  | handshake (h : Handle P) : RenamesTo f (.handshake h) (.handshake (h.rename f))
  | api {events : Config → Handle P → List (Event P)} {events' : Config → Handle Q → List (Event Q)}
      (hev : EventsRenameTo f events events') : RenamesTo f (.api events) (.api events')
  | engine {events : Config → Handle P → List (Event P)} {events' : Config → Handle Q → List (Event Q)}
      (hev : EventsRenameTo f events events') : RenamesTo f (.engine events) (.engine events')

theorem plan_renamesTo (f : P → Q) (name : PinId → P) (i : Instr) :
    (plan name i).RenamesTo f (plan (f ∘ name) i) := by
  cases i with
  | init rs en d4 d5 d6 d7 => exact .handshake _
  | clear => exact .api (clearEvents_rename f)
  | setCursor row column => exact .api (setCursorEvents_rename f row column)
  | print text => exact .api (printEvents_rename f text)
  | printGlyph code => exact .api (sendData_rename f code)
  | createGlyph index bitmap => exact .api (createGlyphEvents_rename f index bitmap)
  | pulseEnable => exact .engine (pulseEnable_rename f)
  | transmitNibble v => exact .engine (transmitNibble_rename f v)
  | sendByte value isData => exact .engine (sendByte_rename f value isData)
  | sendCommand value => exact .engine (sendCommand_rename f value)
  | sendData value => exact .engine (sendData_rename f value)
  | resetNibble => exact .engine (transmitNibble_rename f _)
  | mode4Nibble => exact .engine (transmitNibble_rename f _)
  | functionSet l n f' x => exact .engine (sendWord_rename f _)
  | displayControl d c b => exact .engine (sendWord_rename f _)
  | clearDisplay => exact .engine (sendWord_rename f _)
  | entryModeSet i sh => exact .engine (sendWord_rename f _)
  | setDdramAddr a => exact .engine (sendWord_rename f _)
  | setCgramAddr a => exact .engine (sendWord_rename f _)
  | writeData d => exact .engine (sendWord_rename f _)

/-! ## Other names for the pins of a state -/

variable [DecidableEq P] [DecidableEq Q]

/-- `t` is `s` under the names `f`, but for the order in which the shadow lists its pins. -/
def State.RenamesTo (f : P → Q) (s : State P) (t : State Q) : Prop :=
  ∃ ps : Pins Q, t = { s.rename f with pins := ps } ∧ ∀ p, ps.get (f p) = s.pins.get p

variable {f : P → Q} {s : State P} {t : State Q}

theorem contains_map_of_injective {A B : Type} [DecidableEq A] [DecidableEq B] {g : A → B}
    (hg : Function.Injective g) (l : List A) (a : A) : (l.map g).contains (g a) = l.contains a := by
  rw [Bool.eq_iff_iff, List.contains_iff_mem, List.contains_iff_mem, List.mem_map_of_injective hg]

theorem Pins.get_map_rename (hf : Function.Injective f) (ps : Pins P) (p : P) :
    Pins.get (ps.map fun a => (f a.1, a.2)) (f p) = ps.get p := by
  induction ps with
  | nil => rfl
  | cons a rest ih => simp only [List.map_cons, Pins.get, hf.eq_iff, ih]

theorem State.renamesTo_rename (hf : Function.Injective f) (s : State P) :
    s.RenamesTo f (s.rename f) := ⟨_, rfl, Pins.get_map_rename hf s.pins⟩

/-! ## What the relation says of fields and grounds, and the updates that emit nothing -/

namespace State.RenamesTo

theorem providerFault (h : s.RenamesTo f t) : t.providerFault = s.providerFault := by
  obtain ⟨ps, rfl, -⟩ := h
  rfl

theorem providerFails (hf : Function.Injective f) (h : s.RenamesTo f t) (e : Event P) :
    t.providerFails (e.rename f) = s.providerFails e := by
  obtain ⟨ps, rfl, -⟩ := h
  exact contains_map_of_injective (Event.rename_injective hf) s.failing e

theorem config (h : s.RenamesTo f t) : t.config = s.config := by
  obtain ⟨ps, rfl, -⟩ := h
  rfl

theorem handle (h : s.RenamesTo f t) : t.handle = s.handle.map (Handle.rename f) := by
  obtain ⟨ps, rfl, -⟩ := h
  rfl

theorem apiGround (h : s.RenamesTo f t) : Machine.apiGround t = Machine.apiGround s := by
  obtain ⟨ps, rfl, -⟩ := h
  rfl

theorem initGround (hf : Function.Injective f) (h : s.RenamesTo f t) (hd : Handle P) :
    Machine.initGround (hd.rename f) t = Machine.initGround hd s := by
  obtain ⟨ps, rfl, -⟩ := h
  have hdistinct : (hd.rename f).distinct ↔ hd.distinct := List.nodup_map_iff (l := hd.pins) hf
  have hheld : ((hd.rename f).pins.any fun q => (s.foreignPins.map f).contains q) =
      hd.pins.any fun p => s.foreignPins.contains p := by
    simp only [Handle.pins_rename, List.any_map, Function.comp_def, contains_map_of_injective hf]
  simp only [Machine.initGround, State.rename, hdistinct, hheld]

theorem refuse (g : Ground) (h : s.RenamesTo f t) :
    (Machine.refuse g s).RenamesTo f (Machine.refuse g t) := by
  obtain ⟨ps, rfl, hps⟩ := h
  exact ⟨ps, rfl, hps⟩

theorem begin (h : s.RenamesTo f t) : (Machine.begin s).RenamesTo f (Machine.begin t) := by
  obtain ⟨ps, rfl, hps⟩ := h
  exact ⟨ps, rfl, hps⟩

theorem withSeq (q : Seq) (h : s.RenamesTo f t) :
    State.RenamesTo f { s with seq := q } { t with seq := q } := by
  obtain ⟨ps, rfl, hps⟩ := h
  exact ⟨ps, rfl, hps⟩

theorem withHandle (hd : Handle P) (h : s.RenamesTo f t) :
    State.RenamesTo f { s with handle := some hd } { t with handle := some (hd.rename f) } := by
  obtain ⟨ps, rfl, hps⟩ := h
  exact ⟨ps, rfl, hps⟩

/-- Two outcomes on one condition. -/
theorem ite {s' : State P} {t' : State Q} {b b' : Bool} (hb : b' = b) (h : s.RenamesTo f t)
    (h' : s'.RenamesTo f t') : State.RenamesTo f (if b then s else s') (if b' then t else t') := by
  subst hb
  split
  · exact h
  · exact h'

theorem finish (h : s.RenamesTo f t) : (Machine.finish s).RenamesTo f (Machine.finish t) := by
  refine ite h.providerFault h ?_
  obtain ⟨ps, rfl, hps⟩ := h
  exact ⟨ps, rfl, hps⟩

end State.RenamesTo

/-! ## Every operation keeps the relation -/

variable [LT P] [DecidableLT P] [LT Q] [DecidableLT Q]

/-- An event under its other name does to a pin under its other name what it did to the pin. -/
theorem Pins.get_apply_rename (hf : Function.Injective f) {ps : Pins P} {ps' : Pins Q}
    (hps : ∀ p, ps'.get (f p) = ps.get p) (e : Event P) (p : P) :
    (ps'.apply (e.rename f)).get (f p) = (ps.apply e).get p := by
  have hcfg : e.rename f = .cfg (f p) ↔ e = .cfg p := (Event.rename_injective hf).eq_iff (b := .cfg p)
  have hhi : e.rename f = .hi (f p) ↔ e = .hi p := (Event.rename_injective hf).eq_iff (b := .hi p)
  have hlo : e.rename f = .lo (f p) ↔ e = .lo p := (Event.rename_injective hf).eq_iff (b := .lo p)
  simp only [Pins.get_apply, hcfg, hhi, hlo, hps]

namespace State.RenamesTo

theorem emit (hf : Function.Injective f) (h : s.RenamesTo f t) (e : Event P) :
    (Machine.emit s e).RenamesTo f (Machine.emit t (e.rename f)) := by
  refine ite h.providerFault h (ite (h.providerFails hf e) ?_ ?_)
  · obtain ⟨ps, rfl, hps⟩ := h
    exact ⟨ps, rfl, hps⟩
  · obtain ⟨ps, rfl, hps⟩ := h
    exact ⟨ps.apply (e.rename f), by simp [State.rename], Pins.get_apply_rename hf hps e⟩

theorem emitAll (hf : Function.Injective f) (h : s.RenamesTo f t) (es : List (Event P)) :
    (Machine.emitAll s es).RenamesTo f (Machine.emitAll t (es.map (Event.rename f))) := by
  induction es generalizing s t with
  | nil => exact h
  | cons e es ih => exact ih (h.emit hf e)

theorem transition (hf : Function.Injective f) (h : s.RenamesTo f t) (phase : List (Event P) × Seq) :
    (Machine.transition s phase).RenamesTo f (Machine.transition t (renamePhase f phase)) := by
  have he := h.emitAll hf phase.1
  exact ite he.providerFault he (he.withSeq phase.2)

theorem transitions (hf : Function.Injective f) (h : s.RenamesTo f t)
    (phases : List (List (Event P) × Seq)) :
    (phases.foldl Machine.transition s).RenamesTo f
      ((phases.map (renamePhase f)).foldl Machine.transition t) := by
  induction phases generalizing s t with
  | nil => exact h
  | cons phase phases ih => exact ih (h.transition hf phase)

theorem initOperation (hf : Function.Injective f) (h : s.RenamesTo f t) (hd : Handle P) :
    (Machine.initOperation hd s).RenamesTo f (Machine.initOperation (hd.rename f) t) := by
  simp only [Machine.initOperation, h.initGround hf]
  cases Machine.initGround hd s with
  | some g => exact h.refuse g
  | none =>
    simp only [h.config, initPhases_rename]
    exact (((h.begin.withHandle hd).withSeq .unpowered).transitions hf _).finish

variable {events : Config → Handle P → List (Event P)} {events' : Config → Handle Q → List (Event Q)}

theorem apiOperation (hf : Function.Injective f) (h : s.RenamesTo f t)
    (hev : EventsRenameTo f events events') :
    (Machine.apiOperation events s).RenamesTo f (Machine.apiOperation events' t) := by
  simp only [Machine.apiOperation, h.apiGround]
  cases Machine.apiGround s with
  | some g => exact h.refuse g
  | none =>
    simp only [h.handle, h.config]
    cases s.handle with
    | none => exact h.refuse .noHandle
    | some hd =>
      simp only [Option.map_some, hev s.config hd]
      exact (h.begin.emitAll hf _).finish

theorem engineOperation (hf : Function.Injective f) (h : s.RenamesTo f t)
    (hev : EventsRenameTo f events events') :
    (Machine.engineOperation events s).RenamesTo f (Machine.engineOperation events' t) := by
  simp only [Machine.engineOperation, h.handle, h.config]
  cases s.handle with
  | none => exact h.refuse .noHandle
  | some hd =>
    simp only [Option.map_some, hev s.config hd]
    exact h.emitAll hf _

end State.RenamesTo

theorem State.RenamesTo.perform (hf : Function.Injective f) (name : PinId → P) (i : Instr)
    (h : s.RenamesTo f t) : (Machine.perform name i s).RenamesTo f (Machine.perform (f ∘ name) i t) := by
  have hplan := plan_renamesTo f name i
  unfold Machine.perform
  generalize plan name i = p, plan (f ∘ name) i = q at hplan ⊢
  cases hplan with
  | handshake hd => exact h.initOperation hf hd
  | api hev => exact h.apiOperation hf hev
  | engine hev => exact h.engineOperation hf hev

/-- `exec` is the general operation at the bytes of the host command stream (log 4). -/
theorem exec_eq_perform_id (i : Instr) (s : State) : exec i s = .next (perform id i s) := by
  cases i <;> rfl

end Renaming

/-- Settles O56: every operation keeps the relation of a state to the same state under other names. -/
theorem pinIdentifiersAreOpaque : Obligations.PinIdentifiersAreOpaque := by
  unfold Obligations.PinIdentifiersAreOpaque
  intro P _ _ _ name i s hname
  have hf : Function.Injective name := fun p q => hname p q
  obtain ⟨ps, ht, hps⟩ := (State.renamesTo_rename hf s).perform hf id i
  rw [Function.comp_id] at ht
  refine ⟨exec_eq_perform_id i s, ?_, ?_⟩
  · rw [ht]
  · rw [ht]
    exact hps

end Sys2Proof.Machine

/-! # The state: what every step keeps (10_state.md)

The pin shadow under lists of events (R28, R29), what a step appends and leaves alone (R30, R32, R35), the invariant
of R22 to R30, and the operation taken event by event (R26). -/

namespace Sys2Proof.Machine

/-! ## The pins events act on (R12, R22) -/

section Events

variable {P : Type}

@[simp] theorem Event.pin_cfg (p : P) : (Event.cfg p).pin = some p := rfl
@[simp] theorem Event.pin_hi (p : P) : (Event.hi p).pin = some p := rfl
@[simp] theorem Event.pin_lo (p : P) : (Event.lo p).pin = some p := rfl
@[simp] theorem Event.pin_dms (n : Nat) : (Event.dms n : Event P).pin = none := rfl
@[simp] theorem Event.pin_dus (n : Nat) : (Event.dus n : Event P).pin = none := rfl
@[simp] theorem Event.pin_drive (p : P) (b : Bool) : (drive p b).pin = some p := by cases b <;> rfl

/-- Of distinct pins E is neither RS nor a data pin. -/
theorem Handle.en_not_data {h : Handle P} (hd : h.distinct) : h.en ∉ [h.rs, h.d4, h.d5, h.d6, h.d7] := by
  obtain ⟨hrs, hrest⟩ := List.nodup_cons.1 hd
  obtain ⟨hen, -⟩ := List.nodup_cons.1 hrest
  exact List.not_mem_cons_of_ne_of_not_mem (List.ne_of_not_mem_cons hrs).symm hen

theorem drive_ne_hi {p q : P} (hqp : q ≠ p) (b : Bool) : drive p b ≠ .hi q := by
  cases b
  · simp [drive]
  · simpa [drive] using hqp.symm

/-- TRANSMIT_NIBBLE leaves RS alone (R102). -/
theorem pin_ne_rs_of_mem_transmitNibble {c : Config} {h : Handle P} {v : Nibble} (hd : h.distinct) :
    ∀ e ∈ transmitNibble c h v, e.pin ≠ some h.rs := by
  obtain ⟨hrs, -⟩ := List.nodup_cons.1 hd
  simp only [List.mem_cons, List.not_mem_nil, or_false, not_or] at hrs
  obtain ⟨hen, h4, h5, h6, h7⟩ := hrs
  simp [transmitNibble, pulseEnable, Ne.symm hen, Ne.symm h4, Ne.symm h5, Ne.symm h6, Ne.symm h7]

end Events

/-! ## The shadow after a list of events (R28) -/

section Shadow

variable {P : Type} [DecidableEq P] [LT P] [DecidableLT P]

theorem Pins.get_apply_of_pin_ne {e : Event P} {q : P} (he : e.pin ≠ some q) (ps : Pins P) :
    (ps.apply e).get q = ps.get q := by
  rw [Pins.get_apply, if_neg, if_neg, if_neg] <;> rintro rfl <;> exact he rfl

/-- A pin that no event acts on reads as before. -/
theorem Pins.get_applyAll_of_pin_ne {es : List (Event P)} {q : P} (hes : ∀ e ∈ es, e.pin ≠ some q)
    (ps : Pins P) : (ps.applyAll es).get q = ps.get q := by
  induction es generalizing ps with
  | nil => rfl
  | cons e es ih =>
    obtain ⟨he, hes⟩ := List.forall_mem_cons.1 hes
    rw [Pins.applyAll_cons, ih hes, Pins.get_apply_of_pin_ne he]

theorem Pins.level_apply_drive (ps : Pins P) (p : P) (b : Bool) :
    ((ps.apply (drive p b)).get p).level = if b then .high else .low := by
  cases b <;> simp [drive, Pins.level_apply]

/-- A pin that is an output stays one. -/
theorem Pins.dir_applyAll_of_output {ps : Pins P} {q : P} (hq : (ps.get q).dir = .output)
    (es : List (Event P)) : ((ps.applyAll es).get q).dir = .output := by
  induction es generalizing ps with
  | nil => exact hq
  | cons e es ih => exact ih (by rw [Pins.dir_apply, hq, ite_self])

/-- A pin that has been configured is an output. -/
theorem Pins.dir_applyAll_of_cfg_mem {es : List (Event P)} {q : P} (hq : .cfg q ∈ es) (ps : Pins P) :
    ((ps.applyAll es).get q).dir = .output := by
  obtain ⟨pre, post, rfl⟩ := List.append_of_mem hq
  rw [Pins.applyAll_append, Pins.applyAll_cons]
  exact Pins.dir_applyAll_of_output (by rw [Pins.dir_apply, if_pos rfl]) post

/-- A level that is known stays known. -/
theorem Pins.level_applyAll_ne_unknown {ps : Pins P} {q : P} (hq : (ps.get q).level ≠ .unknown)
    (es : List (Event P)) : ((ps.applyAll es).get q).level ≠ .unknown := by
  induction es generalizing ps with
  | nil => exact hq
  | cons e es ih =>
    refine ih ?_
    rw [Pins.level_apply]
    split_ifs
    · simp
    · simp
    · exact hq

/-- A pin that has been driven has a known level. -/
theorem Pins.level_applyAll_of_drive_mem {es : List (Event P)} {q : P} {b : Bool}
    (hq : drive q b ∈ es) (ps : Pins P) : ((ps.applyAll es).get q).level ≠ .unknown := by
  obtain ⟨pre, post, rfl⟩ := List.append_of_mem hq
  rw [Pins.applyAll_append, Pins.applyAll_cons]
  refine Pins.level_applyAll_ne_unknown ?_ post
  rw [Pins.level_apply_drive]
  cases b <;> simp

/-! ## E and RS after SEND_BYTE (R29, R104) -/

theorem level_en_pulseEnable (c : Config) (h : Handle P) (ps : Pins P) :
    ((ps.applyAll (pulseEnable c h)).get h.en).level = .low := by
  simp [pulseEnable, Pins.level_apply]

theorem level_en_transmitNibble (c : Config) (h : Handle P) (v : Nibble) (ps : Pins P) :
    ((ps.applyAll (transmitNibble c h v)).get h.en).level = .low := by
  rw [transmitNibble, Pins.applyAll_append]
  exact level_en_pulseEnable c h _

theorem level_rs_sendByte (c : Config) {h : Handle P} (hd : h.distinct) (value : Byte) (isData : Bool)
    (ps : Pins P) :
    ((ps.applyAll (sendByte c h value isData)).get h.rs).level = if isData then .high else .low := by
  rw [sendByte, Pins.applyAll_cons, Pins.applyAll_append,
    Pins.get_applyAll_of_pin_ne (pin_ne_rs_of_mem_transmitNibble hd),
    Pins.get_applyAll_of_pin_ne (pin_ne_rs_of_mem_transmitNibble hd), Pins.level_apply_drive]

/-- The last thing `es` sends is a byte, with RS as `isData` says. -/
def EndsWithByte (c : Config) (h : Handle P) (isData : Bool) (es : List (Event P)) : Prop :=
  ∃ value, sendByte c h value isData <:+ es

theorem EndsWithByte.level_en {c : Config} {h : Handle P} {isData : Bool} {es : List (Event P)}
    (hes : EndsWithByte c h isData es) (ps : Pins P) : ((ps.applyAll es).get h.en).level = .low := by
  obtain ⟨value, pre, rfl⟩ := hes
  rw [Pins.applyAll_append, sendByte, Pins.applyAll_cons, Pins.applyAll_append]
  exact level_en_transmitNibble c h _ _

theorem EndsWithByte.level_rs {c : Config} {h : Handle P} {isData : Bool} {es : List (Event P)}
    (hes : EndsWithByte c h isData es) (hd : h.distinct) (ps : Pins P) :
    ((ps.applyAll es).get h.rs).level = if isData then .high else .low := by
  obtain ⟨value, pre, rfl⟩ := hes
  rw [Pins.applyAll_append, level_rs_sendByte c hd]

end Shadow

section LastByte

variable {P : Type}

theorem clearEvents_endsWithByte (c : Config) (h : Handle P) :
    EndsWithByte c h false (clearEvents c h) := ⟨_, List.suffix_append _ _⟩

theorem setCursorEvents_endsWithByte (row column : Byte) (c : Config) (h : Handle P) :
    EndsWithByte c h false (setCursorEvents row column c h) := ⟨_, List.suffix_rfl⟩

theorem createGlyphEvents_endsWithByte (index : Byte) (bitmap : Bitmap) (c : Config) (h : Handle P) :
    EndsWithByte c h false (createGlyphEvents index bitmap c h) := ⟨_, List.suffix_append _ _⟩

theorem printGlyphEvents_endsWithByte (code : Byte) (c : Config) (h : Handle P) :
    EndsWithByte c h true (printGlyphEvents code c h) := ⟨_, List.suffix_rfl⟩

theorem printEvents_endsWithByte {text : List Byte} (ht : text ≠ []) (c : Config) (h : Handle P) :
    EndsWithByte c h true (printEvents text c h) := by
  refine ⟨text.getLast ht, (text.dropLast).flatMap (sendData c h), ?_⟩
  conv_rhs => rw [printEvents, ← List.dropLast_append_getLast ht, List.flatMap_append]
  simp [sendData]

theorem initEvents_endsWithByte (c : Config) (h : Handle P) :
    EndsWithByte c h false (initEvents c h) := by
  refine ⟨c.byteEntryMode, ((initPhases c h).take 6).flatMap Prod.fst, ?_⟩
  simp [initEvents, initPhases, sendCommand]

/-- A Display API operation sends nothing at all (PRINT of no character), or a byte last (R140 to R158). -/
theorem apiEvents_nil_or_endsWithByte {i : Instr} {events : Config → Handle → List Event}
    (hev : apiEvents i = some events) (c : Config) (h : Handle) :
    events c h = [] ∨ ∃ isData, EndsWithByte c h isData (events c h) := by
  cases i with
  | clear => cases hev; exact .inr ⟨_, clearEvents_endsWithByte c h⟩
  | setCursor row column => cases hev; exact .inr ⟨_, setCursorEvents_endsWithByte row column c h⟩
  | print text =>
    cases hev
    cases text with
    | nil => exact .inl rfl
    | cons code text => exact .inr ⟨_, printEvents_endsWithByte (List.cons_ne_nil _ _) c h⟩
  | printGlyph code => cases hev; exact .inr ⟨_, printGlyphEvents_endsWithByte code c h⟩
  | createGlyph index bitmap =>
    cases hev; exact .inr ⟨_, createGlyphEvents_endsWithByte index bitmap c h⟩
  | _ => cases hev

end LastByte

/-! ## Idle pins (R29) -/

/-- Events after which E is low leave idle pins idle. -/
theorem Pins.idle_applyAll {ps : Pins} {h : Handle} (hi : ps.idle h) {es : List Event}
    (hen : ((ps.applyAll es).get h.en).level = .low) : (ps.applyAll es).idle h := by
  obtain ⟨hdir, -, hlevel⟩ := hi
  exact ⟨fun p hp => Pins.dir_applyAll_of_output (hdir p hp) es, hen,
    fun p hp => Pins.level_applyAll_ne_unknown (hlevel p hp) es⟩

theorem idle_applyAll_apiEvents {i : Instr} {events : Config → Handle → List Event}
    (hev : apiEvents i = some events) (c : Config) {h : Handle} {ps : Pins} (hi : ps.idle h) :
    (ps.applyAll (events c h)).idle h := by
  refine Pins.idle_applyAll hi ?_
  rcases apiEvents_nil_or_endsWithByte hev c h with hnil | ⟨isData, hes⟩
  · rw [hnil]; exact hi.2.1
  · exact hes.level_en ps

theorem cfg_mem_initEvents (c : Config) {h : Handle} {p : PinId} (hp : p ∈ h.pins) :
    .cfg p ∈ initEvents c h := by
  refine List.mem_flatMap.2 ⟨_, List.mem_cons_self, List.mem_append_left _ ?_⟩
  simp only [Handle.pins, List.mem_cons, List.not_mem_nil, or_false] at hp
  rcases hp with rfl | rfl | rfl | rfl | rfl | rfl <;> simp [initStep1]

theorem drive_mem_transmitNibble (c : Config) {h : Handle} (v : Nibble) {p : PinId}
    (hp : p ∈ [h.d4, h.d5, h.d6, h.d7]) : ∃ b, drive p b ∈ transmitNibble c h v := by
  simp only [List.mem_cons, List.not_mem_nil, or_false] at hp
  rcases hp with rfl | rfl | rfl | rfl
  · exact ⟨v.getLsbD 0, by simp [transmitNibble]⟩
  · exact ⟨v.getLsbD 1, by simp [transmitNibble]⟩
  · exact ⟨v.getLsbD 2, by simp [transmitNibble]⟩
  · exact ⟨v.getLsbD 3, by simp [transmitNibble]⟩

theorem drive_mem_initEvents (c : Config) {h : Handle} {p : PinId} (hp : p ∈ h.pins) :
    ∃ b, drive p b ∈ initEvents c h := by
  have step1 : ∀ e ∈ initStep1 h, e ∈ initEvents c h := fun e he =>
    List.mem_flatMap.2 ⟨_, List.mem_cons_self, List.mem_append_left _ he⟩
  have step4 : ∀ e ∈ transmitNibble c h 0x2, e ∈ initEvents c h := fun e he =>
    List.mem_flatMap.2 ⟨(transmitNibble c h 0x2, .fourBitConfigured), by simp [initPhases], he⟩
  rcases List.mem_cons.1 hp with rfl | hp
  · exact ⟨false, step1 _ (by simp [initStep1, drive])⟩
  rcases List.mem_cons.1 hp with rfl | hp
  · exact ⟨false, step1 _ (by simp [initStep1, drive])⟩
  obtain ⟨b, hb⟩ := drive_mem_transmitNibble c 0x2 hp
  exact ⟨b, step4 _ hb⟩

/-- INIT leaves its pins idle, whatever they were. -/
theorem idle_applyAll_initEvents (c : Config) (h : Handle) (ps : Pins) :
    (ps.applyAll (initEvents c h)).idle h := by
  refine ⟨fun p hp => Pins.dir_applyAll_of_cfg_mem (cfg_mem_initEvents c hp) ps,
    (initEvents_endsWithByte c h).level_en ps, fun p hp => ?_⟩
  obtain ⟨b, hb⟩ := drive_mem_initEvents c hp
  exact Pins.level_applyAll_of_drive_mem hb ps

end Sys2Proof.Machine

/-! # What a step keeps (R30, R32, R35, R41) -/

namespace Sys2Proof.Machine

/-- Everything a step does, but for the bytes it takes from the stream, it does by emitting events. -/
theorem step_emits {s t : State} (h : step s = .next t) :
    ∃ stream es, Emits { s with stream := stream } t es := by
  obtain ⟨-, rfl | ⟨-, rfl⟩ | ⟨i, rest, -, -, hx⟩⟩ := step_cases h
  · exact ⟨t.stream, [], Emits.refl t⟩
  · exact ⟨_, [], Emits.of_refuse .malformed _⟩
  · obtain ⟨es, hes, -⟩ := exec_emits hx
    exact ⟨rest, es, hes⟩

/-- Settles O48: what a step does is to emit events. -/
theorem stepOnlyAppendsToTheTrace : Obligations.StepOnlyAppendsToTheTrace := by
  unfold Obligations.StepOnlyAppendsToTheTrace
  intro s t h
  obtain ⟨_, es, hes⟩ := step_emits h
  exact ⟨es, hes.trace, hes.pins⟩

/-- Settles O49: what a step does is to emit events, and that clears no mark. -/
theorem marksAreSticky : Obligations.MarksAreSticky := by
  unfold Obligations.MarksAreSticky
  intro s t h
  obtain ⟨_, _, hes⟩ := step_emits h
  exact ⟨hes.refused, hes.providerFault⟩

/-- Settles O51: what a step does is to emit events, and that writes none of the three. -/
theorem stepKeepsConfigurationAndEnvironment : Obligations.StepKeepsConfigurationAndEnvironment := by
  unfold Obligations.StepKeepsConfigurationAndEnvironment
  intro s t h
  obtain ⟨_, _, hes⟩ := step_emits h
  exact ⟨hes.config, hes.failing, hes.foreignPins⟩

/-! ## Handle and `seq` -/

@[simp] theorem finish_seq (s : State) : (finish s).seq = s.seq := by
  unfold finish; split <;> rfl

theorem emitAll_handle_seq (s : State) (es : List Event) :
    (emitAll s es).handle = s.handle ∧ (emitAll s es).seq = s.seq := by
  obtain ⟨-, -, -, hh, hseq, -⟩ := emitAll_emits s es
  exact ⟨hh, hseq⟩

theorem apiOperation_handle_seq (events : Config → Handle → List Event) (s : State) :
    (apiOperation events s).handle = s.handle ∧ (apiOperation events s).seq = s.seq := by
  unfold apiOperation
  split
  · exact ⟨rfl, rfl⟩
  · split
    · rw [finish_handle, finish_seq]
      exact emitAll_handle_seq (begin s) _
    · exact ⟨rfl, rfl⟩

theorem engineOperation_handle_seq (events : Config → Handle → List Event) (s : State) :
    (engineOperation events s).handle = s.handle ∧ (engineOperation events s).seq = s.seq := by
  unfold engineOperation
  split
  · exact emitAll_handle_seq s _
  · exact ⟨rfl, rfl⟩

/-- Settles O50, by the kinds of operation: those other than INIT write neither. -/
theorem onlyInitWritesHandleAndSeq : Obligations.OnlyInitWritesHandleAndSeq := by
  unfold Obligations.OnlyInitWritesHandleAndSeq
  intro s t i hi h
  rcases exec_cases i s with ⟨rs, en, d4, d5, d6, d7, rfl, -⟩ | ⟨ev, -, -, hx⟩ | ⟨ev, -, -, hx⟩
  · exact absurd rfl (hi rs en d4 d5 d6 d7)
  · cases hx.symm.trans h
    exact apiOperation_handle_seq ev s
  · cases hx.symm.trans h
    exact engineOperation_handle_seq ev s

/-! # The invariant (R22, R23, R25, R27 to R30, R42) -/

/-! ## Which operations the host can issue (R71) -/

section Layer

variable {bytes rest : List Byte} {i : Instr}

theorem layer_of_decodeHI (h : decodeHI bytes = .instr i rest) : i.layer = .host := by
  unfold decodeHI at h
  split at h
  · cases h; rfl
  · cases h

theorem layer_of_decodeHRC (h : decodeHRC bytes = .instr i rest) : i.layer = .host := by
  unfold decodeHRC at h
  split at h
  · cases h; rfl
  · cases h

theorem layer_of_decodeHT (h : decodeHT bytes = .instr i rest) : i.layer = .host := by
  unfold decodeHT at h
  split at h
  · split at h
    · cases h; rfl
    · cases h
  · cases h

theorem layer_of_decodeHB (h : decodeHB bytes = .instr i rest) : i.layer = .host := by
  unfold decodeHB at h
  split at h
  · cases h; rfl
  · cases h

theorem layer_of_decodeHG (h : decodeHG bytes = .instr i rest) : i.layer = .host := by
  unfold decodeHG at h
  split at h
  · cases h; rfl
  · cases h

/-- The host command stream spells host operations only. -/
theorem layer_of_decode (h : decode bytes = .instr i rest) : i.layer = .host := by
  cases bytes with
  | nil => cases h
  | cons opcode bytes =>
    simp only [decode] at h
    split at h
    · exact layer_of_decodeHI h
    · cases h; rfl
    · exact layer_of_decodeHRC h
    · exact layer_of_decodeHT h
    · exact layer_of_decodeHB h
    · exact layer_of_decodeHG h
    · cases h

end Layer

/-! ## What keeps the invariant -/

theorem State.atRest_iff_of_handle {s : State} {h : Handle} (hh : s.handle = some h) :
    s.atRest ↔ s.seq = .ready ∧ h.distinct ∧ s.pins.idle h := by
  simp only [State.atRest, hh]

theorem State.Inv.busy_eq {s : State} : s.Inv → s.busy = s.providerFault
  | ⟨_, _, hb, _⟩ => hb

theorem State.Inv.atRest {s : State} : s.Inv → s.busy = false → s.atRest
  | ⟨_, _, _, _, hr⟩ => hr

/-- The stream is no part of the invariant. -/
theorem State.Inv.withStream {s : State} (hs : s.Inv) (stream : List Byte) :
    State.Inv { s with stream := stream } := hs

/-- A refusal keeps the invariant (R175). -/
theorem State.Inv.after_refuse {s : State} (hs : s.Inv) (g : Ground) : (refuse g s).Inv := by
  obtain ⟨hl, hsh, hb, -, hr⟩ := hs
  exact ⟨hl, hsh, hb, rfl, hr⟩

/-- Emitting events, to the last or up to a provider failure, keeps the invariant if it leaves the block at
rest or stopped. -/
theorem State.Inv.of_emits {s t : State} {es : List Event} (hs : s.Inv) (he : Emits s t es)
    (hbusy : t.busyOnlyByFault) (hr : t.refused = s.refused) (hg : t.ground = s.ground)
    (hrest : t.busy = false → t.atRest) : t.Inv := by
  obtain ⟨hl, ⟨hw, hp⟩, -, hgr, -⟩ := hs
  refine ⟨he.config ▸ hl, ⟨he.pins ▸ Pins.wf_applyAll hw es, ?_⟩, hbusy, ?_, hrest⟩
  · rw [he.pins, he.trace, Pins.applyAll_append, ← hp]
  · rw [State.groundIfRefused, hr, hg]
    exact hgr

/-- A Display API operation keeps the invariant. -/
theorem State.Inv.after_apiOperation {s : State} (hs : s.Inv) {i : Instr}
    {events : Config → Handle → List Event} (hev : apiEvents i = some events) :
    (apiOperation events s).Inv := by
  have hhandle : s.busy = false → s.seq = .ready → ∃ h, s.handle = some h := by
    intro hb hseq
    cases hh : s.handle with
    | some h => exact ⟨h, rfl⟩
    | none =>
      have hrest := hs.atRest hb
      simp [State.atRest, hh, hseq] at hrest
  rcases apiOperation_cases s events hhandle hs.busy_eq with
    ⟨g, -, hx⟩ | ⟨h, ⟨-, hb, -, hh⟩, ⟨-, hx⟩ | ⟨pre, e, post, -, -, -, hx⟩⟩
  · rw [hx]; exact hs.after_refuse g
  · rw [hx]
    refine hs.of_emits (es := events s.config h) (by constructor <;> simp) hs.busy_eq rfl rfl
      fun _ => ?_
    obtain ⟨hseq, hd, hidle⟩ := (State.atRest_iff_of_handle hh).1 (hs.atRest hb)
    exact (State.atRest_iff_of_handle (s := s.emitted _) hh).2
      ⟨hseq, hd, idle_applyAll_apiEvents hev s.config hidle⟩
  · rw [hx]
    exact hs.of_emits (es := pre) (by constructor <;> simp) rfl rfl rfl (fun hb => by cases hb)

/-- INIT keeps the invariant. -/
theorem State.Inv.after_initOperation {s : State} (hs : s.Inv) (h : Handle) :
    (initOperation h s).Inv := by
  rcases initOperation_cases s h hs.busy_eq with
    ⟨g, -, hx⟩ | ⟨⟨-, -, hd, -⟩, -, hx⟩ | ⟨-, ⟨pre, -, he⟩, -, hpf, hb, hr, hg⟩
  · rw [hx]; exact hs.after_refuse g
  · rw [hx]
    exact hs.of_emits (es := initEvents s.config h) (by constructor <;> simp) hs.busy_eq rfl rfl
      fun _ => (State.atRest_iff_of_handle rfl).2
        ⟨rfl, hd, idle_applyAll_initEvents s.config h s.pins⟩
  · exact hs.of_emits he (hb.trans hpf.symm) hr hg fun hb' => by rw [hb] at hb'; cases hb'

/-- Settles O46, by what a step can do: wait, refuse, or run one host operation. -/
theorem stepKeepsTheInvariant : Obligations.StepKeepsTheInvariant := by
  unfold Obligations.StepKeepsTheInvariant
  intro s t hs h
  obtain ⟨-, rfl | ⟨-, rfl⟩ | ⟨i, rest, -, hdec, hx⟩⟩ := step_cases h
  · exact hs
  · exact (hs.withStream _).after_refuse .malformed
  · have hs' := hs.withStream rest
    rcases exec_cases i { s with stream := rest } with
      ⟨rs, en, d4, d5, d6, d7, -, hx'⟩ | ⟨ev, hev, -, hx'⟩ | ⟨-, -, hlayer, -⟩
    · cases hx'.symm.trans hx
      exact hs'.after_initOperation _
    · cases hx'.symm.trans hx
      exact hs'.after_apiOperation hev
    · exact absurd (layer_of_decode hdec) hlayer

/-- Settles O2. -/
theorem resetMeetsTheInvariant : Obligations.ResetMeetsTheInvariant :=
  ⟨by decide, ⟨Pins.wf_nil, rfl⟩, rfl, rfl, fun _ => rfl⟩

end Sys2Proof.Machine

/-! # Pins, views and the operation event by event -/

namespace Sys2Proof.Machine

/-! ## RS and E after a completed Display API operation (R29, R160) -/

theorem exec_of_apiEvents {i : Instr} {events : Config → Handle → List Event}
    (hev : apiEvents i = some events) (s : State) : exec i s = .next (apiOperation events s) := by
  rcases exec_cases i s with ⟨rs, en, d4, d5, d6, d7, rfl, -⟩ | ⟨ev, hev', -, hx⟩ | ⟨ev, hev', -, -⟩
  · cases hev
  · cases hev.symm.trans hev'
    exact hx
  · cases i <;> simp [apiEvents, engineEvents] at hev hev'

/-- A Display API operation in which no provider failed has emitted its events and done nothing else. -/
theorem exec_api_completed {i : Instr} {events : Config → Handle → List Event}
    (hev : apiEvents i = some events) {s t : State} {h : Handle} (hs : s.readyOn h)
    (hx : exec i s = .next t) (ht : t.providerFault = false) : t = s.emitted (events s.config h) := by
  cases (exec_of_apiEvents hev s).symm.trans hx
  rcases quiet_or_first_failing s (events s.config h) with hq | ⟨pre, e, post, hpre, hq, he⟩
  · exact apiOperation_of_ready hs hq
  · rw [apiOperation_of_failing hs hpre hq he] at ht
    cases ht

/-- Settles O31: the last thing the operation sends is a command, or a data byte. -/
theorem rsAndEAfterTheDisplayApi : Obligations.RsAndEAfterTheDisplayApi := by
  unfold Obligations.RsAndEAfterTheDisplayApi
  intro s t h i hs hd _ hx ht
  have levels : ∀ {events isData}, apiEvents i = some events →
      EndsWithByte s.config h isData (events s.config h) →
      (t.pins.get h.en).level = .low ∧ (t.pins.get h.rs).level = if isData then .high else .low := by
    intro events isData hev hes
    rw [exec_api_completed hev hs hx ht, State.emitted_pins]
    exact ⟨hes.level_en s.pins, hes.level_rs hd s.pins⟩
  constructor
  · rintro (rfl | ⟨row, column, rfl⟩ | ⟨index, bitmap, rfl⟩)
    · exact levels rfl (clearEvents_endsWithByte _ _)
    · exact levels rfl (setCursorEvents_endsWithByte row column _ _)
    · exact levels rfl (createGlyphEvents_endsWithByte index bitmap _ _)
  · rintro (⟨code, rfl⟩ | ⟨code, text, rfl⟩)
    · exact levels rfl (printGlyphEvents_endsWithByte code _ _)
    · exact levels rfl (printEvents_endsWithByte (List.cons_ne_nil code text) _ _)

/-! ## One event on the shadow, and the canonical form (R28) -/

/-- Settles O39: an event writes one pin, or none. -/
theorem shadowFollowsTheEvents : Obligations.ShadowFollowsTheEvents := by
  unfold Obligations.ShadowFollowsTheEvents
  intro ps p q n hw
  exact ⟨Pins.get_set hw p q _, Pins.get_set hw p q _, Pins.get_set hw p q _, rfl, rfl⟩

@[simp] theorem Pins.get_cons_self (p : PinId) (v : Pin) (ps : Pins) :
    Pins.get ((p, v) :: ps) p = v := if_pos rfl

theorem Pins.get_cons_of_ne {p q : PinId} (hq : q ≠ p) (v : Pin) (ps : Pins) :
    Pins.get ((p, v) :: ps) q = Pins.get ps q := if_neg hq

/-- No listed pin stands below the first of a canonical shadow that reads the same. -/
theorem Pins.not_lt_head_of_get_eq {p q : PinId} {v w : Pin} {a b : Pins}
    (ha : Pins.wf ((p, v) :: a)) (hb : Pins.wf ((q, w) :: b))
    (h : ∀ r, Pins.get ((p, v) :: a) r = Pins.get ((q, w) :: b) r) : ¬ p < q := by
  intro hlt
  have hbelow : ∀ c ∈ (q, w) :: b, p < c.1 :=
    List.forall_mem_cons.2 ⟨hlt, fun c hc => BitVec.lt_trans hlt (Pins.head_below hb c hc)⟩
  have hp := h p
  rw [Pins.get_cons_self, Pins.get_of_below _ p hbelow] at hp
  exact ha.2 (p, v) List.mem_cons_self hp

theorem Pins.eq_of_get_eq {a b : Pins} (ha : a.wf) (hb : b.wf) (h : ∀ p, a.get p = b.get p) :
    a = b := by
  induction a generalizing b with
  | nil =>
    cases b with
    | nil => rfl
    | cons y b =>
      have hy := h y.1
      rw [Pins.get_cons_self] at hy
      exact absurd hy.symm (hb.2 y List.mem_cons_self)
  | cons x a ih =>
    obtain ⟨p, v⟩ := x
    cases b with
    | nil =>
      have hp := h p
      rw [Pins.get_cons_self] at hp
      exact absurd hp (ha.2 (p, v) List.mem_cons_self)
    | cons y b =>
      obtain ⟨q, w⟩ := y
      obtain rfl : p = q := by
        have hpq := Pins.not_lt_head_of_get_eq ha hb h
        have hqp := Pins.not_lt_head_of_get_eq hb ha fun r => (h r).symm
        exact BitVec.le_antisymm (BitVec.not_lt.1 hqp) (BitVec.not_lt.1 hpq)
      obtain rfl : v = w := by simpa using h p
      congr 1
      refine ih (Pins.wf_tail ha) (Pins.wf_tail hb) fun r => ?_
      by_cases hr : r = p
      · rw [hr, Pins.get_of_below a p (Pins.head_below ha), Pins.get_of_below b p (Pins.head_below hb)]
      · simpa only [Pins.get_cons_of_ne hr] using h r

/-- Settles O40. -/
theorem canonicalShadowsThatReadAlikeAreEqual : Obligations.CanonicalShadowsThatReadAlikeAreEqual :=
  fun _ _ => Pins.eq_of_get_eq

/-! ## RS and the data pins while E is high (R29) -/

section Stability

variable {P : Type} [DecidableEq P] [LT P] [DecidableLT P] {c : Config} {h : Handle P}

theorem stableWhileHigh_of_prefix {ps : Pins P} {pre es : List (Event P)} (hpre : pre <+: es)
    (hes : stableWhileHigh h ps es = true) : stableWhileHigh h ps pre = true := by
  obtain ⟨post, rfl⟩ := hpre
  rw [stableWhileHigh_append, Bool.and_eq_true] at hes
  exact hes.1

/-- Events on no data pin may come while E is high. -/
theorem stableWhileHigh_of_no_data {es : List (Event P)} (hes : ∀ e ∈ es, touchesData h e = false)
    (ps : Pins P) : stableWhileHigh h ps es = true := by
  induction es generalizing ps with
  | nil => rfl
  | cons e es ih =>
    obtain ⟨he, hes⟩ := List.forall_mem_cons.1 hes
    simp [stableWhileHigh, he, ih hes]

/-- Issued while E is not high, `es` acts on no data pin at a moment when E is high, and leaves E not high. -/
def KeepsDataStable (h : Handle P) (es : List (Event P)) : Prop :=
  ∀ ps : Pins P, (ps.get h.en).level ≠ .high →
    stableWhileHigh h ps es = true ∧ ((ps.applyAll es).get h.en).level ≠ .high

namespace KeepsDataStable

theorem nil : KeepsDataStable h [] := fun _ hen => ⟨rfl, hen⟩

theorem append {a b : List (Event P)} (ha : KeepsDataStable h a) (hb : KeepsDataStable h b) :
    KeepsDataStable h (a ++ b) := by
  intro ps hen
  obtain ⟨hsa, hea⟩ := ha ps hen
  obtain ⟨hsb, heb⟩ := hb _ hea
  rw [stableWhileHigh_append, Pins.applyAll_append, hsa, hsb]
  exact ⟨rfl, heb⟩

/-- An event that does not raise E. -/
theorem cons {e : Event P} {es : List (Event P)} (he : e ≠ .hi h.en) (hes : KeepsDataStable h es) :
    KeepsDataStable h (e :: es) := by
  intro ps hen
  have hen' : ((ps.apply e).get h.en).level ≠ .high := by
    rw [Pins.level_apply, if_neg he]
    split_ifs
    · simp
    · exact hen
  obtain ⟨hs, he'⟩ := hes _ hen'
  exact ⟨by simp [stableWhileHigh, hen, hs], he'⟩

theorem of_no_rise {es : List (Event P)} (hes : ∀ e ∈ es, e ≠ .hi h.en) : KeepsDataStable h es := by
  induction es with
  | nil => exact nil
  | cons e es ih =>
    obtain ⟨he, hes⟩ := List.forall_mem_cons.1 hes
    exact cons he (ih hes)

theorem flatMap {A : Type} {f : A → List (Event P)} {xs : List A}
    (hf : ∀ x ∈ xs, KeepsDataStable h (f x)) : KeepsDataStable h (xs.flatMap f) := by
  induction xs with
  | nil => exact nil
  | cons x xs ih =>
    obtain ⟨hx, hxs⟩ := List.forall_mem_cons.1 hf
    exact List.flatMap_cons ▸ append hx (ih hxs)

/-! ### Each operation of the host -/

theorem dms (n : Nat) : KeepsDataStable h [.dms n] := of_no_rise (by simp)

theorem initStep1 : KeepsDataStable h (Machine.initStep1 h) := of_no_rise (by simp [Machine.initStep1])

/-- Of all a handle's pins the pulse acts on E alone. -/
theorem pulseEnable (hd : h.distinct) : KeepsDataStable h (Machine.pulseEnable c h) := by
  refine fun ps _ => ⟨stableWhileHigh_of_no_data ?_ ps, by simp [level_en_pulseEnable]⟩
  simpa [Machine.pulseEnable, touchesData] using Handle.en_not_data hd

theorem transmitNibble (hd : h.distinct) (v : Nibble) :
    KeepsDataStable h (Machine.transmitNibble c h v) := by
  have hen := Handle.en_not_data hd
  simp only [List.mem_cons, List.not_mem_nil, or_false, not_or] at hen
  obtain ⟨-, h4, h5, h6, h7⟩ := hen
  refine append (of_no_rise ?_) (pulseEnable hd)
  simp only [List.forall_mem_cons]
  exact ⟨drive_ne_hi h4 _, drive_ne_hi h5 _, drive_ne_hi h6 _, drive_ne_hi h7 _, by simp⟩

theorem sendByte (hd : h.distinct) (value : Byte) (isData : Bool) :
    KeepsDataStable h (Machine.sendByte c h value isData) := by
  have hen := Handle.en_not_data hd
  simp only [List.mem_cons, not_or] at hen
  exact cons (drive_ne_hi hen.1 isData) (append (transmitNibble hd _) (transmitNibble hd _))

theorem clearEvents (hd : h.distinct) : KeepsDataStable h (Machine.clearEvents c h) :=
  append (append (sendByte hd _ _) (dms _)) (sendByte hd _ _)

theorem printEvents (hd : h.distinct) (text : List Byte) :
    KeepsDataStable h (Machine.printEvents text c h) := flatMap fun code _ => sendByte hd code true

theorem createGlyphEvents (hd : h.distinct) (index : Byte) (bitmap : Bitmap) :
    KeepsDataStable h (Machine.createGlyphEvents index bitmap c h) :=
  append (append (sendByte hd _ _) (flatMap fun row _ => sendByte hd row true)) (sendByte hd _ _)

theorem initStep3 (hd : h.distinct) : KeepsDataStable h (Machine.initStep3 c h) :=
  append (append (append (append (append (transmitNibble hd _) (dms _)) (transmitNibble hd _))
    (dms _)) (transmitNibble hd _)) (dms _)

theorem initEvents (hd : h.distinct) : KeepsDataStable h (Machine.initEvents c h) := by
  refine flatMap ?_
  simp only [initPhases, List.forall_mem_cons]
  exact ⟨append initStep1 (dms _), initStep3 hd, transmitNibble hd _, sendByte hd _ _,
    sendByte hd _ _, clearEvents hd, sendByte hd _ _, nil, by simp⟩

end KeepsDataStable

end Stability

theorem keepsDataStable_operationEvents {i : Instr} (hi : i.layer = .host) (c : Config) {h : Handle}
    (hd : h.distinct) : KeepsDataStable h (operationEvents i c h) := by
  cases i with
  | init rs en d4 d5 d6 d7 => exact KeepsDataStable.initEvents hd
  | clear => exact KeepsDataStable.clearEvents hd
  | setCursor row column => exact KeepsDataStable.sendByte hd _ _
  | print text => exact KeepsDataStable.printEvents hd text
  | printGlyph code => exact KeepsDataStable.sendByte hd _ _
  | createGlyph index bitmap => exact KeepsDataStable.createGlyphEvents hd index bitmap
  | _ => cases hi

/-- Settles O44: what the operation emits is a beginning of the events its rule gives it on the handle it
leaves behind, and those keep the data pins stable. -/
theorem dataPinsAreStableWhileEnableIsHigh : Obligations.DataPinsAreStableWhileEnableIsHigh := by
  unfold Obligations.DataPinsAreStableWhileEnableIsHigh
  intro s t i h hi hx hh hd _ hen
  obtain ⟨es, he, rfl | ⟨h', hh', hpre⟩⟩ := exec_emits hx
  · exact ⟨[], he.trace, rfl⟩
  · obtain rfl : h' = h := Option.some.inj (hh'.symm.trans hh)
    obtain ⟨hstable, -⟩ := keepsDataStable_operationEvents hi s.config hd s.pins hen
    exact ⟨es, he.trace, stableWhileHigh_of_prefix hpre hstable⟩

/-! ## The operation taken event by event (R26, R121, R180) -/

section Ticks

variable {P : Type} [DecidableEq P] [LT P] [DecidableLT P]

/-- After a provider failure an event still to be emitted ends the operation (R180). -/
theorem Running.tick_emit_of_fault {s : State P} (hp : s.providerFault = true) (e : Event P)
    (rest : List (Micro P)) : Running.tick ⟨s, .emit e :: rest⟩ = ⟨s, []⟩ := by
  simp [Running.tick, emit, hp]

/-- The end of an operation, reached or lost to a provider failure: `finish` either way. -/
theorem Running.ticks_done (s : State P) :
    ∃ n, Running.ticks n ⟨s, if s.providerFault then [] else [.done]⟩ = ⟨finish s, []⟩ := by
  cases hp : s.providerFault with
  | true => exact ⟨0, by simp [finish, hp]⟩
  | false => exact ⟨1, by simp [Running.tick]⟩

/-- A row of transitions, tick by tick, without a provider failure before it (R121). -/
theorem Running.ticks_ofPhases (phs : List (List (Event P) × Seq)) (s : State P)
    (rest : List (Micro P)) (hp : s.providerFault = false) :
    ∃ n, Running.ticks n ⟨s, Micro.ofPhases phs ++ rest⟩ =
      ⟨phs.foldl transition s, if (phs.foldl transition s).providerFault then [] else rest⟩ := by
  induction phs generalizing s with
  | nil => exact ⟨0, by simp [Micro.ofPhases, hp]⟩
  | cons ph phs ih =>
    have htodo : Micro.ofPhases (ph :: phs) ++ rest =
        Micro.ofEvents ph.1 ++ .reach ph.2 :: (Micro.ofPhases phs ++ rest) := by
      simp [Micro.ofPhases]
    obtain ⟨n, hn⟩ := Running.ticks_ofEvents ph.1 s (.reach ph.2 :: (Micro.ofPhases phs ++ rest)) hp
    rw [htodo, List.foldl_cons]
    cases hf : (emitAll s ph.1).providerFault with
    | true =>
      have ht : transition s ph = emitAll s ph.1 := by simp [transition, hf]
      exact ⟨n, by rw [hn, ht, transitions_of_fault hf, hf]; rfl⟩
    | false =>
      have ht : transition s ph = { emitAll s ph.1 with seq := ph.2 } := by simp [transition, hf]
      obtain ⟨m, hm⟩ := ih (transition s ph) (by rw [ht]; exact hf)
      refine ⟨n + (m + 1), ?_⟩
      rw [Running.ticks_add, hn, hf, ← hm, ht]
      rfl

/-- Events and the end of their operation, tick by tick. -/
theorem Running.ticks_ofEvents_done (es : List (Event P)) (s : State P) :
    ∃ n, Running.ticks n ⟨s, Micro.ofEvents es ++ [.done]⟩ = ⟨finish (emitAll s es), []⟩ := by
  cases hp : s.providerFault with
  | false =>
    obtain ⟨n, hn⟩ := Running.ticks_ofEvents es s [.done] hp
    obtain ⟨m, hm⟩ := Running.ticks_done (emitAll s es)
    exact ⟨n + m, by rw [Running.ticks_add, hn, hm]⟩
  | true =>
    rw [emitAll_of_fault hp]
    cases es with
    | nil => exact ⟨1, rfl⟩
    | cons e es => exact ⟨1, by simp [Micro.ofEvents, Running.tick_emit_of_fault hp, finish, hp]⟩

/-- INIT's transitions and its end, tick by tick. -/
theorem Running.ticks_ofInitPhases_done (c : Config) (h : Handle P) (s : State P) :
    ∃ n, Running.ticks n ⟨s, Micro.ofPhases (initPhases c h) ++ [.done]⟩ =
      ⟨finish ((initPhases c h).foldl transition s), []⟩ := by
  cases hp : s.providerFault with
  | false =>
    obtain ⟨n, hn⟩ := Running.ticks_ofPhases (initPhases c h) s [.done] hp
    obtain ⟨m, hm⟩ := Running.ticks_done ((initPhases c h).foldl transition s)
    exact ⟨n + m, by rw [Running.ticks_add, hn, hm]⟩
  | true =>
    rw [transitions_of_fault hp]
    refine ⟨1, (Running.tick_emit_of_fault hp _ _).trans ?_⟩
    simp [finish, hp]

/-- The events of a primitive or a bus word, tick by tick. -/
theorem Running.ticks_ofEvents_todo (es : List (Event P)) (s : State P) :
    ∃ n, Running.ticks n ⟨s, Micro.ofEvents es⟩ = ⟨emitAll s es, []⟩ := by
  cases hp : s.providerFault with
  | false =>
    obtain ⟨n, hn⟩ := Running.ticks_ofEvents es s [] hp
    exact ⟨n, by rwa [List.append_nil, ite_self] at hn⟩
  | true =>
    rw [emitAll_of_fault hp]
    cases es with
    | nil => exact ⟨0, rfl⟩
    | cons e es => exact ⟨1, Running.tick_emit_of_fault hp e _⟩

/-- An operation over pin identifiers of any type, tick by tick from its issue: refused at once, or its
events and its end. -/
theorem Running.ticks_issue (name : PinId → P) (i : Instr) (s : State P) :
    ∃ n, (issue name i s).ticks n = ⟨perform name i s, []⟩ := by
  unfold issue perform
  cases plan name i with
  | handshake h =>
    simp only [initOperation]
    cases initGround h s with
    | some g => exact ⟨0, rfl⟩
    | none => exact Running.ticks_ofInitPhases_done s.config h _
  | api events =>
    simp only [apiOperation]
    cases apiGround s with
    | some g => exact ⟨0, rfl⟩
    | none =>
      cases s.handle with
      | none => exact ⟨0, rfl⟩
      | some h => exact Running.ticks_ofEvents_done _ _
  | engine events =>
    simp only [engineOperation]
    cases s.handle with
    | none => exact ⟨0, rfl⟩
    | some h => exact Running.ticks_ofEvents_todo _ _

end Ticks

/-- Settles O57. -/
theorem eventByEventIsTheOperation : Obligations.EventByEventIsTheOperation := by
  unfold Obligations.EventByEventIsTheOperation
  intro i s
  obtain ⟨n, hn⟩ := Running.ticks_issue id i s
  exact ⟨n, by rw [hn], by rw [hn]; exact exec_eq_perform_id i s⟩

/-! ## The state after reset (R41, R200), and an engine without a handle (R42) -/

/-- A block that is idle with nothing in its stream waits (R200). -/
theorem step_of_empty_stream {s : State} (hl : s.config.legal) (hs : s.stream = []) :
    step s = .next s := by
  have hf : fetch s = .wait := fetch_of_wait hl (.inr (by rw [hs]; rfl))
  rw [step, hf]

/-- Settles O1. -/
theorem resetStateAndWaiting : Obligations.ResetStateAndWaiting :=
  ⟨rfl, rfl, rfl, fun _ => ⟨rfl, rfl⟩, rfl, rfl, rfl, rfl, step_of_empty_stream (by decide) rfl⟩

/-- Settles O18, by the kinds of operation. -/
theorem engineWithoutHandleIsRefused : Obligations.EngineWithoutHandleIsRefused := by
  unfold Obligations.EngineWithoutHandleIsRefused
  intro s i hi hh
  rcases exec_cases i s with ⟨rs, en, d4, d5, d6, d7, rfl, -⟩ | ⟨ev, -, hhost, -⟩ | ⟨ev, -, -, hx⟩
  · exact absurd rfl hi
  · exact absurd hhost hi
  · rw [hx, engineOperation_of_no_handle hh]
    rfl

end Sys2Proof.Machine

/-! # The step and the host command stream (R63, R72, R73) -/

namespace Sys2Proof.Machine

theorem step_of_decode {s : State} {i : Instr} {rest : List Byte} (hl : s.config.legal)
    (hb : s.busy = false) (hdec : decode s.stream = .instr i rest) :
    step s = exec i { s with stream := rest } := by
  rw [step, fetch_of_operation hl hb hdec]

/-- PRINT's length byte carries the length of any text that fits (R74). -/
theorem decodeHT_append {text : List Byte} (hfit : textFits text = true) (rest : List Byte) :
    decodeHT (BitVec.ofNat 8 text.length :: (text ++ rest)) = .instr (.print text) rest := by
  have hle : text.length ≤ 255 := of_decide_eq_true hfit
  have hlen : (BitVec.ofNat 8 text.length).toNat = text.length := by
    rw [BitVec.toNat_ofNat]
    omega
  simp [decodeHT, hlen]

/-- Every well-formed host operation is decoded from its encoding, whatever follows (R72, R73). -/
theorem decode_encode_append {i : Instr} (hi : i.layer = .host) (hw : i.wellFormed = true)
    (rest : List Byte) : decode (encode i ++ rest) = .instr i rest := by
  cases i with
  | init rs en d4 d5 d6 d7 => rfl
  | clear => rfl
  | setCursor row column => rfl
  | print text => exact decodeHT_append hw rest
  | printGlyph code => rfl
  | createGlyph index bitmap => rfl
  | _ => cases hi

/-- Settles O4. -/
theorem stepRunsTheDecodedOperation : Obligations.StepRunsTheDecodedOperation :=
  fun _ _ _ hl hb hdec => step_of_decode hl hb hdec

/-- Settles O5: the encoding decodes to the operation it encodes. -/
theorem stepConsumesOneWholeOperation : Obligations.StepConsumesOneWholeOperation := by
  unfold Obligations.StepConsumesOneWholeOperation
  intro s i rest hl hb hi hw hs
  exact step_of_decode hl hb (hs ▸ decode_encode_append hi hw rest)

end Sys2Proof.Machine

/-! # The latched view of what the block emits (R50, R51, R80 to R82)

Every list of events the block emits is read as the transfers the display latches, given only how E and RS stand
before it; the lists are then put together as the block puts them together. -/

namespace Sys2Proof.Machine

section Latching

variable {P : Type} [DecidableEq P] [LT P] [DecidableLT P] {c : Config} {h : Handle P}

/-! ## One nibble (R50, R102) -/

theorem Pins.bit_applyAll_of_pin_ne {es : List (Event P)} {q : P} (hes : ∀ e ∈ es, e.pin ≠ some q)
    (ps : Pins P) : (ps.applyAll es).bit q = ps.bit q := by
  rw [Pins.bit, Pins.get_applyAll_of_pin_ne hes, Pins.bit]

@[simp] theorem Pins.bit_apply_drive (ps : Pins P) (p q : P) (b : Bool) :
    (ps.apply (drive p b)).bit q = if p = q then some b else ps.bit q := by
  by_cases hpq : p = q
  · subst hpq
    cases b <;> simp [Pins.bit, Pins.level_apply_drive, Level.bit]
  · rw [if_neg hpq, Pins.bit, Pins.get_apply_of_pin_ne (by simpa using hpq), Pins.bit]

/-- While E is not high and nothing raises it, nothing is latched. -/
theorem latchedView_of_no_rise {es : List (Event P)} (hes : ∀ e ∈ es, e ≠ .hi h.en) {ps : Pins P}
    (hen : (ps.get h.en).level ≠ .high) : latchedView h ps es = [] := by
  induction es generalizing ps with
  | nil => rfl
  | cons e es ih =>
    obtain ⟨he, hes⟩ := List.forall_mem_cons.1 hes
    rw [latchedView, if_neg fun hl => hen hl.2]
    exact ih hes (KeepsDataStable.of_no_rise (es := [e]) (by simpa using he) ps hen).2

omit [LT P] [DecidableLT P] in
theorem transferAt_congr {a b : Pins P} (hab : ∀ p ∈ [h.rs, h.d4, h.d5, h.d6, h.d7], a.bit p = b.bit p) :
    transferAt h a = transferAt h b := by
  simp only [List.forall_mem_cons] at hab
  obtain ⟨hrs, h4, h5, h6, h7, -⟩ := hab
  simp only [transferAt, hrs, h4, h5, h6, h7]

/-- The pulse latches what stands on RS and the data pins (R50, R100). -/
theorem latchedView_pulseEnable (hd : h.distinct) {ps : Pins P} (hen : (ps.get h.en).level ≠ .high) :
    latchedView h ps (pulseEnable c h) = [transferAt h ps] := by
  have hsplit : pulseEnable c h = [.lo h.en, .dus c.tEPre, .hi h.en, .dus c.tEWidth] ++
      [.lo h.en, .dus c.tEPost] := rfl
  have hlow : latchedView h ps [.lo h.en, .dus c.tEPre, .hi h.en, .dus c.tEWidth] = [] := by
    simp [latchedView, hen]
  have hsame : ∀ p ∈ [h.rs, h.d4, h.d5, h.d6, h.d7],
      (ps.applyAll [.lo h.en, .dus c.tEPre, .hi h.en, .dus c.tEWidth]).bit p = ps.bit p := by
    intro p hp
    have hpe : h.en ≠ p := fun he => Handle.en_not_data hd (he ▸ hp)
    exact Pins.bit_applyAll_of_pin_ne (by simp [hpe]) ps
  rw [hsplit, latchedView_append, hlow, ← transferAt_congr hsame]
  simp [latchedView, Pins.level_apply]

theorem nibble_of_bits (v : Nibble) :
    bit v[3] ++ bit v[2] ++ bit v[1] ++ bit v[0] = v := by
  decide +revert

/-- The four data pins driven, RS as it stands: the pair `(rs, v)` (R45, R50). -/
theorem transferAt_driven (hd : h.distinct) {ps : Pins P} {rs : Bool} (hrs : ps.bit h.rs = some rs)
    (v : Nibble) :
    transferAt h (ps.applyAll [drive h.d4 (v.getLsbD 0), drive h.d5 (v.getLsbD 1),
      drive h.d6 (v.getLsbD 2), drive h.d7 (v.getLsbD 3)]) = some (rs, v) := by
  simp only [Handle.distinct, Handle.pins, List.nodup_cons, List.mem_cons, List.not_mem_nil, or_false,
    not_or] at hd
  obtain ⟨⟨-, hr4, hr5, hr6, hr7⟩, -, ⟨h45, h46, h47⟩, ⟨h56, h57⟩, h67, -⟩ := hd
  simp [transferAt, hrs, nibble_of_bits, Ne.symm hr4, Ne.symm hr5, Ne.symm hr6, Ne.symm hr7,
    Ne.symm h45, Ne.symm h46, Ne.symm h47, Ne.symm h56, Ne.symm h57, Ne.symm h67]

/-! ## Lists of events as transfers -/

/-- Issued while E is not high and RS stands at `rs`, `es` has the display latch `ts`, and leaves E not high and
RS at `rs'`. -/
def Latches (h : Handle P) (rs : Option Bool) (es : List (Event P)) (ts : List Transfer)
    (rs' : Option Bool) : Prop :=
  ∀ ps : Pins P, (ps.get h.en).level ≠ .high → ps.bit h.rs = rs →
    latchedView h ps es = ts.map some ∧ ((ps.applyAll es).get h.en).level ≠ .high ∧
      (ps.applyAll es).bit h.rs = rs'

namespace Latches

theorem append {rs rs' rs'' : Option Bool} {a b : List (Event P)} {ts us : List Transfer}
    (ha : Latches h rs a ts rs') (hb : Latches h rs' b us rs'') :
    Latches h rs (a ++ b) (ts ++ us) rs'' := by
  intro ps hen hrs
  obtain ⟨hva, hena, hrsa⟩ := ha ps hen hrs
  obtain ⟨hvb, henb, hrsb⟩ := hb _ hena hrsa
  rw [latchedView_append, Pins.applyAll_append, hva, hvb, List.map_append]
  exact ⟨rfl, henb, hrsb⟩

theorem dms (rs : Option Bool) (n : Nat) : Latches h rs [.dms n] [] rs :=
  fun _ hen hrs => ⟨rfl, hen, hrs⟩

theorem driveRs (hd : h.distinct) (rs : Option Bool) (b : Bool) :
    Latches h rs [drive h.rs b] [] (some b) := by
  intro ps hen _
  have hno : ∀ e ∈ [drive h.rs b], e ≠ .hi h.en := by
    have hne := Handle.en_not_data hd
    simpa using drive_ne_hi (List.ne_of_not_mem_cons hne) b
  exact ⟨latchedView_of_no_rise hno hen, (KeepsDataStable.of_no_rise hno ps hen).2, by simp⟩

/-- TRANSMIT_NIBBLE has one transfer latched, "with RS as it stands" (R81, R102). -/
theorem transmitNibble (hd : h.distinct) (rs : Bool) (v : Nibble) :
    Latches h (some rs) (Machine.transmitNibble c h v) [(rs, v)] (some rs) := by
  intro ps hen hrs
  have hne := Handle.en_not_data hd
  simp only [List.mem_cons, List.not_mem_nil, or_false, not_or] at hne
  obtain ⟨-, h4, h5, h6, h7⟩ := hne
  have hno : ∀ e ∈ [drive h.d4 (v.getLsbD 0), drive h.d5 (v.getLsbD 1), drive h.d6 (v.getLsbD 2),
      drive h.d7 (v.getLsbD 3)], e ≠ .hi h.en := by
    simp only [List.forall_mem_cons]
    exact ⟨drive_ne_hi h4 _, drive_ne_hi h5 _, drive_ne_hi h6 _, drive_ne_hi h7 _, by simp⟩
  refine ⟨?_, by simp [level_en_transmitNibble], ?_⟩
  · rw [Machine.transmitNibble, latchedView_append, latchedView_of_no_rise hno hen,
      latchedView_pulseEnable hd (KeepsDataStable.of_no_rise hno ps hen).2, transferAt_driven hd hrs]
    rfl
  · rw [Pins.bit_applyAll_of_pin_ne (pin_ne_rs_of_mem_transmitNibble hd), hrs]

/-- SEND_BYTE has the high nibble latched, then the low, both with RS as it sets it (R46, R104). -/
theorem sendByte (hd : h.distinct) (rs : Option Bool) (value : Byte) (isData : Bool) :
    Latches h rs (Machine.sendByte c h value isData)
      [(isData, highNibble value), (isData, lowNibble value)] (some isData) :=
  (driveRs hd rs isData).append ((transmitNibble hd isData _).append (transmitNibble hd isData _))

/-- INIT's first step latches nothing and leaves RS low (R123). -/
theorem initStep1 (hd : h.distinct) (rs : Option Bool) :
    Latches h rs (Machine.initStep1 h) [] (some false) := by
  intro ps hen _
  have hno : ∀ e ∈ Machine.initStep1 h, e ≠ .hi h.en := by simp [Machine.initStep1]
  have hne : h.rs ≠ h.en := fun he => Handle.en_not_data hd (he ▸ List.mem_cons_self)
  refine ⟨latchedView_of_no_rise hno hen, (KeepsDataStable.of_no_rise hno ps hen).2, ?_⟩
  simp [Machine.initStep1, Pins.bit, Pins.level_apply, hne.symm, Level.bit]

/-- INIT's third step: three times 0x3 (R125). -/
theorem initStep3 (hd : h.distinct) (rs : Bool) :
    Latches h (some rs) (Machine.initStep3 c h) [(rs, 0x3), (rs, 0x3), (rs, 0x3)] (some rs) :=
  have reset (n : Nat) := (transmitNibble (c := c) hd rs 0x3).append (dms (some rs) n)
  have hall := ((reset c.tReset1Ms).append (reset c.tReset2Ms)).append (reset c.tReset3Ms)
  by simpa [Machine.initStep3] using hall

end Latches

/-! ## Lists of events as bus words (R51, R80) -/

/-- The two transfers that convey a bus word: "first of the pair the high nibble, second the low nibble"
(R51). -/
def wordTransfers (w : BusWord) : List Transfer := [(w.rs, highNibble w.db), (w.rs, lowNibble w.db)]

/-- Issued while E is not high, `es` sends the bus words `ws`, whatever stands on RS before. -/
def Sends (h : Handle P) (es : List (Event P)) (ws : List BusWord) : Prop :=
  ∀ rs, ∃ rs', Latches h rs es (ws.flatMap wordTransfers) rs'

namespace Sends

theorem nil : Sends h [] [] := fun rs => ⟨rs, fun _ hen hrs => ⟨rfl, hen, hrs⟩⟩

theorem append {a b : List (Event P)} {ws xs : List BusWord} (ha : Sends h a ws) (hb : Sends h b xs) :
    Sends h (a ++ b) (ws ++ xs) := by
  intro rs
  obtain ⟨rs', ha⟩ := ha rs
  obtain ⟨rs'', hb⟩ := hb rs'
  exact ⟨rs'', by rw [List.flatMap_append]; exact ha.append hb⟩

theorem dms (n : Nat) : Sends h [.dms n] [] := fun rs => ⟨rs, Latches.dms rs n⟩

theorem sendByte (hd : h.distinct) (value : Byte) (isData : Bool) :
    Sends h (Machine.sendByte c h value isData) [⟨isData, value⟩] :=
  fun rs => ⟨some isData, Latches.sendByte hd rs value isData⟩

/-- What the display latches of the words, whatever stands on RS before. -/
theorem latchedView {es : List (Event P)} {ws : List BusWord} (hes : Sends h es ws) {ps : Pins P}
    (hen : (ps.get h.en).level ≠ .high) :
    Machine.latchedView h ps es = (ws.flatMap wordTransfers).map some := by
  obtain ⟨rs', hl⟩ := hes (ps.bit h.rs)
  exact (hl ps hen rfl).1

/-! ### Each operation of the Display API (R140 to R158) -/

theorem data (hd : h.distinct) (text : List Byte) :
    Sends h (text.flatMap (sendData c h)) (text.map (⟨true, ·⟩)) := by
  induction text with
  | nil => exact nil
  | cons code text ih => exact (sendByte hd code true).append ih

theorem clearEvents (hd : h.distinct) :
    Sends h (Machine.clearEvents c h) [⟨false, c.byteClear⟩, ⟨false, ddramByte c 0⟩] :=
  ((sendByte hd _ _).append (dms _)).append (sendByte hd _ _)

theorem setCursorEvents (hd : h.distinct) (row column : Byte) :
    Sends h (Machine.setCursorEvents row column c h) [⟨false, ddramByte c (ddramAddress c row column)⟩] :=
  sendByte hd _ _

theorem printEvents (hd : h.distinct) (text : List Byte) :
    Sends h (Machine.printEvents text c h) (text.map (⟨true, ·⟩)) := data hd text

theorem printGlyphEvents (hd : h.distinct) (code : Byte) :
    Sends h (Machine.printGlyphEvents code c h) [⟨true, code⟩] := sendByte hd code true

theorem createGlyphEvents (hd : h.distinct) (index : Byte) (bitmap : Bitmap) :
    Sends h (Machine.createGlyphEvents index bitmap c h)
      (⟨false, cgramByte c index⟩ :: bitmap.rows.map (⟨true, ·⟩) ++ [⟨false, ddramByte c 0⟩]) :=
  ((sendByte hd _ _).append (data hd _)).append (sendByte hd _ _)

end Sends

end Latching

/-! ## Cutting transfers into messages (R51, R82) -/

theorem highNibble_append_lowNibble (value : Byte) : highNibble value ++ lowNibble value = value :=
  (BitVec.extractLsb'_append_extractLsb'_eq_extractLsb' rfl).trans BitVec.extractLsb'_eq_self

/-- The transfers of bus words pair up into those words. -/
theorem pairUp_transfers (ws : List BusWord) :
    pairUp ((ws.flatMap wordTransfers).map some) = some (ws.map .word) := by
  induction ws with
  | nil => rfl
  | cons w ws ih =>
    simp [wordTransfers, pairUp, ih, highNibble_append_lowNibble]

/-- Transfers that pair up with none left over do not disturb the pairing of what follows. -/
theorem pairUp_append {ts us : List (Option Transfer)} {ms : List Message} (hts : pairUp ts = some ms)
    (hhalf : ∀ w, Message.half w ∉ ms) : pairUp (ts ++ us) = (pairUp us).map (ms ++ ·) := by
  induction ts using pairUp.induct generalizing ms with
  | case1 => cases hts; simp
  | case2 rs high => cases hts; exact absurd List.mem_cons_self (hhalf _)
  | case3 r high low rest ih =>
    simp only [pairUp, if_true, Option.map_eq_some_iff] at hts
    obtain ⟨ns, hns, rfl⟩ := hts
    have hih := ih hns fun w hw => hhalf w (List.mem_cons_of_mem _ hw)
    simp [pairUp, hih, Function.comp_def]
  | case4 r1 high r2 low rest hne => simp [pairUp, hne] at hts
  | case5 ts h1 h2 h3 => simp [pairUp] at hts

/-- So do transfers of which the first `k` are single-nibble words. -/
theorem cutSingles_append {k : Nat} {ts us : List (Option Transfer)} {ms : List Message}
    (hk : k ≤ ts.length) (hts : cutSingles k ts = some ms) (hhalf : ∀ w, Message.half w ∉ ms) :
    cutSingles k (ts ++ us) = (pairUp us).map (ms ++ ·) := by
  induction k generalizing ts ms with
  | zero => exact pairUp_append hts hhalf
  | succ k ih =>
    cases ts with
    | nil => cases hk
    | cons t ts =>
      cases t with
      | none => cases hts
      | some t =>
        simp only [cutSingles, Option.map_eq_some_iff] at hts
        obtain ⟨ns, hns, rfl⟩ := hts
        have hih := ih (Nat.le_of_succ_le_succ hk) hns fun w hw => hhalf w (List.mem_cons_of_mem _ hw)
        simp [cutSingles, hih, Function.comp_def]

/-! ## The bus words of the Display API (R51, R140 to R160) -/

theorem ddramByte_zero (c : Config) : ddramByte c 0 = c.byteDdramBase := by simp [ddramByte]

theorem Sends.pairUp {P : Type} [DecidableEq P] [LT P] [DecidableLT P] {h : Handle P}
    {es : List (Event P)} {ws : List BusWord} (hes : Sends h es ws) {ps : Pins P}
    (hen : (ps.get h.en).level ≠ .high) :
    Machine.pairUp (Machine.latchedView h ps es) = some (ws.map .word) := by
  rw [hes.latchedView hen, pairUp_transfers]

/-- Settles O42: the words each operation sends, paired up. -/
theorem displayApiSendsTheseBusWords : Obligations.DisplayApiSendsTheseBusWords := by
  unfold Obligations.DisplayApiSendsTheseBusWords
  intro c h ps hd _ hen
  rw [← ddramByte_zero]
  refine ⟨(Sends.clearEvents hd).pairUp hen,
    fun row column => (Sends.setCursorEvents hd row column).pairUp hen, fun text => ?_,
    fun code => (Sends.printGlyphEvents hd code).pairUp hen,
    fun index bitmap => (Sends.createGlyphEvents hd index bitmap).pairUp hen⟩
  rw [(Sends.printEvents hd text).pairUp hen, List.map_map]
  rfl

end Sys2Proof.Machine

/-! # The framing of the whole trace (R51, R82, R91) -/

namespace Sys2Proof.Machine

/-! ## The words are those the block emits (R83, R84, R91) -/

theorem emittable_data (c : Config) (code : Byte) : emittable c (.word ⟨true, code⟩) = true := rfl

theorem decodeBus_ddram {address : Nat} (ha : address < 128) :
    decodeBus ⟨false, 0x80 ||| BitVec.ofNat 8 address⟩ =
      some (.setDdramAddr (BitVec.ofNat 7 address)) := by
  decide +revert

theorem decodeBus_cgram (index : Byte) :
    decodeBus ⟨false, 0x40 ||| cgramAddress index⟩ =
      some (.setCgramAddr (index.setWidth 6 <<< 3)) := by
  decide +revert

/-- "set DDRAM address" on a cell of the configured rows. -/
theorem emittable_ddramByte {c : Config} (hstd : standardBytes c) (hl : c.legalGeometry) {row column : Nat}
    (hr : row < c.rowCount) (hc : column < c.columnCount) :
    emittable c (.word ⟨false, ddramByte c (column + rowOffset row)⟩) = true := by
  obtain ⟨-, -, -, hbase, -, -⟩ := hstd
  obtain ⟨-, hrows, -, hcols⟩ := hl
  have hoff : rowOffset row = 64 * row := by
    unfold rowOffset
    split <;> omega
  have ha : column + 64 * row < 128 := by omega
  rw [ddramByte, hbase, hoff, emittable, Message.row, decodeBus_ddram ha]
  simp only [BitVec.toNat_ofNat, Bool.and_eq_true, decide_eq_true_eq]
  omega

theorem saturate_lt (operand : Byte) {count : Nat} (hc : 1 ≤ count) : saturate operand count < count := by
  unfold saturate
  omega

theorem emittable_home {c : Config} (hstd : standardBytes c) (hl : c.legalGeometry) :
    emittable c (.word ⟨false, ddramByte c 0⟩) = true :=
  emittable_ddramByte (row := 0) (column := 0) hstd hl hl.1 hl.2.2.1

theorem emittable_cgramByte {c : Config} (hstd : standardBytes c) (index : Byte) :
    emittable c (.word ⟨false, cgramByte c index⟩) = true := by
  obtain ⟨-, -, -, -, -, hbase⟩ := hstd
  rw [cgramByte, hbase, emittable, Message.row, decodeBus_cgram]
  simp only [BitVec.toNat_shiftLeft, decide_eq_true_eq]
  omega

/-- A Display API operation sends words, each of them one the block emits. -/
theorem sends_apiEvents {i : Instr} {events : Config → Handle → List Event}
    (hev : apiEvents i = some events) {c : Config} {h : Handle} (hd : h.distinct)
    (hstd : standardBytes c) (hl : c.legalGeometry) :
    ∃ ws, Sends h (events c h) ws ∧ ∀ w ∈ ws, emittable c (.word w) = true := by
  have hdata : ∀ text : List Byte, ∀ w ∈ text.map (BusWord.mk true), emittable c (.word w) = true :=
    fun text => List.forall_mem_map.2 fun code _ => emittable_data c code
  have hhome := emittable_home hstd hl
  cases i with
  | clear =>
    cases hev
    obtain ⟨-, -, hclear, -⟩ := hstd
    refine ⟨_, Sends.clearEvents hd, ?_⟩
    simp only [List.forall_mem_cons]
    exact ⟨by rw [hclear]; rfl, hhome, by simp⟩
  | setCursor row column =>
    cases hev
    refine ⟨_, Sends.setCursorEvents hd row column, ?_⟩
    have hcell := emittable_ddramByte hstd hl (saturate_lt row hl.1) (saturate_lt column hl.2.2.1)
    exact List.forall_mem_singleton.2 hcell
  | print text => cases hev; exact ⟨_, Sends.printEvents hd text, hdata text⟩
  | printGlyph code => cases hev; exact ⟨_, Sends.printGlyphEvents hd code, hdata [code]⟩
  | createGlyph index bitmap =>
    cases hev
    refine ⟨_, Sends.createGlyphEvents hd index bitmap, ?_⟩
    simp only [List.cons_append, List.forall_mem_cons, List.forall_mem_append]
    exact ⟨emittable_cgramByte hstd index, hdata _, hhome, by simp⟩
  | _ => cases hev

/-! ## INIT's own words (R82, R124 to R130) -/

section Init

variable {P : Type} [DecidableEq P] [LT P] [DecidableLT P] {h : Handle P}

/-- The part of INIT before the display is in 4-bit mode (R123 to R126). -/
def initHandshake (c : Config) (h : Handle P) : List (Event P) :=
  initStep1 h ++ [.dms c.tPowerupMs] ++ initStep3 c h ++ transmitNibble c h 0x2

/-- The part after it (R127 to R130). -/
def initCommands (c : Config) (h : Handle P) : List (Event P) :=
  sendCommand c h c.byteFunctionSet ++ sendCommand c h c.byteDisplayControl ++ clearEvents c h ++
    sendCommand c h c.byteEntryMode

omit [DecidableEq P] [LT P] [DecidableLT P] in
theorem initEvents_eq (c : Config) (h : Handle P) :
    initEvents c h = initHandshake c h ++ initCommands c h := by
  simp [initEvents, initPhases, initHandshake, initCommands]

/-- The words of INIT after its four single-nibble words. -/
def initWords (c : Config) : List BusWord :=
  [⟨false, c.byteFunctionSet⟩, ⟨false, c.byteDisplayControl⟩, ⟨false, c.byteClear⟩,
    ⟨false, ddramByte c 0⟩, ⟨false, c.byteEntryMode⟩]

theorem latches_initHandshake (c : Config) (hd : h.distinct) (rs : Option Bool) :
    Latches h rs (initHandshake c h) [(false, 0x3), (false, 0x3), (false, 0x3), (false, 0x2)]
      (some false) :=
  (((Latches.initStep1 hd rs).append (Latches.dms _ _)).append (Latches.initStep3 hd false)).append
    (Latches.transmitNibble hd false 0x2)

theorem sends_initCommands (c : Config) (hd : h.distinct) : Sends h (initCommands c h) (initWords c) :=
  (((Sends.sendByte hd _ _).append (Sends.sendByte hd _ _)).append (Sends.clearEvents hd)).append
    (Sends.sendByte hd _ _)

/-- INIT's transfers: the four single-nibble words, then its words (R132). -/
theorem latchedView_initEvents (c : Config) (hd : h.distinct) {ps : Pins P}
    (hen : (ps.get h.en).level ≠ .high) :
    latchedView h ps (initEvents c h) =
      [some (false, 0x3), some (false, 0x3), some (false, 0x3), some (false, 0x2)] ++
        ((initWords c).flatMap wordTransfers).map some := by
  obtain ⟨hview, hen', -⟩ := latches_initHandshake c hd (ps.bit h.rs) ps hen rfl
  rw [initEvents_eq, latchedView_append, hview, (sends_initCommands c hd).latchedView hen']
  rfl

/-- INIT's messages (R82). -/
def initMessages (c : Config) : List Message :=
  [.single ⟨false, 0x3⟩, .single ⟨false, 0x3⟩, .single ⟨false, 0x3⟩, .single ⟨false, 0x2⟩] ++
    (initWords c).map .word

theorem cutInit_initEvents (c : Config) (hd : h.distinct) {ps : Pins P}
    (hen : (ps.get h.en).level ≠ .high) :
    cutInit (latchedView h ps (initEvents c h)) = some (initMessages c) := by
  simp [latchedView_initEvents c hd hen, cutInit, cutSingles, pairUp_transfers, initMessages]

end Init

theorem emittable_initMessages {c : Config} (hstd : standardBytes c) (hl : c.legalGeometry) :
    (initMessages c).all (emittable c) = true := by
  have hhome := emittable_home hstd hl
  obtain ⟨hf, hdc, hclear, -, hentry, -⟩ := hstd
  simp only [initMessages, initWords, hf, hdc, hclear, hentry, List.map_cons, List.map_nil,
    List.cons_append, List.nil_append, List.all_cons, hhome]
  rfl

/-! ## Where a `CFG` comes (R123) -/

section Cutting

variable {P : Type}

@[simp] theorem Event.isCfg_cfg (p : P) : (Event.cfg p).isCfg = true := rfl
@[simp] theorem Event.isCfg_hi (p : P) : (Event.hi p).isCfg = false := rfl
@[simp] theorem Event.isCfg_lo (p : P) : (Event.lo p).isCfg = false := rfl
@[simp] theorem Event.isCfg_dms (n : Nat) : (Event.dms n : Event P).isCfg = false := rfl
@[simp] theorem Event.isCfg_dus (n : Nat) : (Event.dus n : Event P).isCfg = false := rfl
@[simp] theorem Event.isCfg_drive (p : P) (b : Bool) : (drive p b).isCfg = false := by cases b <;> rfl

theorem isCfg_of_mem_transmitNibble (c : Config) (h : Handle P) (v : Nibble) :
    ∀ e ∈ transmitNibble c h v, e.isCfg = false := by
  simp [transmitNibble, pulseEnable]

theorem isCfg_of_mem_sendByte (c : Config) (h : Handle P) (value : Byte) (isData : Bool) :
    ∀ e ∈ sendByte c h value isData, e.isCfg = false := by
  simp only [sendByte, List.forall_mem_cons, List.forall_mem_append]
  exact ⟨Event.isCfg_drive _ _, isCfg_of_mem_transmitNibble c h _, isCfg_of_mem_transmitNibble c h _⟩

theorem isCfg_of_mem_clearEvents (c : Config) (h : Handle P) :
    ∀ e ∈ clearEvents c h, e.isCfg = false := by
  simp only [clearEvents, List.forall_mem_append]
  exact ⟨⟨isCfg_of_mem_sendByte c h _ _, by simp⟩, isCfg_of_mem_sendByte c h _ _⟩

theorem isCfg_of_mem_data (c : Config) (h : Handle P) (text : List Byte) :
    ∀ e ∈ text.flatMap (sendData c h), e.isCfg = false := by
  intro e he
  obtain ⟨code, -, he⟩ := List.mem_flatMap.1 he
  exact isCfg_of_mem_sendByte c h code true e he

/-- INIT configures its six pins, and then no more. -/
theorem initEvents_eq_cfg_append (c : Config) (h : Handle P) :
    ∃ es, initEvents c h = [.cfg h.rs, .cfg h.en, .cfg h.d4, .cfg h.d5, .cfg h.d6, .cfg h.d7] ++ es ∧
      ∀ e ∈ es, e.isCfg = false := by
  refine ⟨[.lo h.rs, .lo h.en, .dms c.tPowerupMs] ++ initStep3 c h ++ transmitNibble c h 0x2 ++
    initCommands c h, by simp [initEvents_eq, initHandshake, initStep1], ?_⟩
  have hnibble := isCfg_of_mem_transmitNibble c h
  have hbyte := isCfg_of_mem_sendByte c h
  simp only [initStep3, initCommands, List.forall_mem_append]
  exact ⟨⟨⟨by simp, ⟨⟨⟨⟨hnibble _, by simp⟩, hnibble _⟩,
    by simp⟩, hnibble _⟩, by simp⟩, hnibble _⟩,
    ⟨⟨hbyte _ _, hbyte _ _⟩, isCfg_of_mem_clearEvents c h⟩, hbyte _ _⟩

theorem handleOfInit_initEvents (c : Config) (h : Handle P) : handleOfInit (initEvents c h) = some h := rfl

theorem getLast?_initEvents (c : Config) (h : Handle P) :
    (initEvents c h).getLast? = some (.dus c.tEPost) := rfl

theorem handleOfInit_append {a : List (Event P)} {h : Handle P} (ha : handleOfInit a = some h)
    (b : List (Event P)) : handleOfInit (a ++ b) = some h := by
  unfold handleOfInit at ha
  split at ha
  · exact ha
  · cases ha

/-! ## The last stretch of a trace (R82) -/

/-- What stands before the last stretch does not depend on what comes after the trace. -/
theorem splitInitsFrom_append (after : Bool) (stretch a : List (Event P)) :
    ∃ pre last, ∀ b, splitInitsFrom after stretch (a ++ b) =
      pre ++ splitInitsFrom ((a.getLast?.map Event.isCfg).getD after) last b := by
  induction a generalizing after stretch with
  | nil => exact ⟨[], stretch, fun _ => rfl⟩
  | cons e a ih =>
    have hlast : (((e :: a).getLast?).map Event.isCfg).getD after =
        (a.getLast?.map Event.isCfg).getD e.isCfg := by
      rw [List.getLast?_cons]
      cases a.getLast? <;> rfl
    rw [hlast]
    simp only [List.cons_append, splitInitsFrom]
    split
    · next hcfg =>
      obtain ⟨hcfg, -⟩ := Bool.and_eq_true_iff.1 hcfg
      obtain ⟨pre, last, hsplit⟩ := ih true [e]
      exact ⟨stretch :: pre, last, fun b => by rw [hsplit, hcfg, List.cons_append]⟩
    · exact ih e.isCfg (stretch ++ [e])

theorem splitInits_append (trace : List (Event P)) :
    ∃ pre, ∀ es, splitInits (trace ++ es) =
      pre ++ splitInitsFrom ((trace.getLast?.map Event.isCfg).getD false) (sinceInit trace) es := by
  obtain ⟨pre, last, hsplit⟩ := splitInitsFrom_append false [] trace
  have hlast : splitInits trace = pre ++ [last] := by simpa [splitInits, splitInitsFrom] using hsplit []
  have hsince : sinceInit trace = last := by simp [sinceInit, hlast]
  exact ⟨pre, hsince ▸ hsplit⟩

/-- Events without a `CFG` go on with the last stretch. -/
theorem splitInits_append_noCfg (trace : List (Event P)) :
    ∃ pre, ∀ es, (∀ e ∈ es, e.isCfg = false) →
      splitInits (trace ++ es) = pre ++ [sinceInit trace ++ es] := by
  obtain ⟨pre, hsplit⟩ := splitInits_append trace
  exact ⟨pre, fun es hes => by rw [hsplit, splitInitsFrom_of_noCfg hes]⟩

theorem sinceInit_append_noCfg (trace : List (Event P)) {es : List (Event P)}
    (hes : ∀ e ∈ es, e.isCfg = false) : sinceInit (trace ++ es) = sinceInit trace ++ es := by
  obtain ⟨pre, hsplit⟩ := splitInits_append_noCfg trace
  rw [sinceInit, hsplit es hes]
  simp

theorem sinceInit_suffix (trace : List (Event P)) : sinceInit trace <:+ trace := by
  obtain ⟨pre, hsplit⟩ := splitInits_append_noCfg trace
  have htrace := hsplit [] (by simp)
  rw [List.append_nil, List.append_nil] at htrace
  have hflat := splitInitsFrom_flatten false [] trace
  rw [← splitInits, htrace] at hflat
  exact ⟨pre.flatten, by simpa using hflat⟩

/-- An INIT begins a stretch of its own, after a trace that does not end inside the `CFG` of another. -/
theorem splitInits_append_initEvents {trace : List (Event P)}
    (htrace : ∀ e, trace.getLast? = some e → e.isCfg = false) (c : Config) (h : Handle P) :
    splitInits (trace ++ initEvents c h) = splitInits trace ++ [initEvents c h] := by
  obtain ⟨pre, hsplit⟩ := splitInits_append trace
  have hend : (trace.getLast?.map Event.isCfg).getD false = false := by
    cases he : trace.getLast? with
    | none => rfl
    | some e => exact htrace e he
  obtain ⟨es, hes, hno⟩ := initEvents_eq_cfg_append c h
  have hwhole := hsplit []
  rw [List.append_nil] at hwhole
  rw [hsplit, hwhole, hend, hes]
  simp [splitInitsFrom, splitInitsFrom_of_noCfg hno]

theorem sinceInit_append_initEvents {trace : List (Event P)}
    (htrace : ∀ e, trace.getLast? = some e → e.isCfg = false) (c : Config) (h : Handle P) :
    sinceInit (trace ++ initEvents c h) = initEvents c h := by
  simp [sinceInit, splitInits_append_initEvents htrace]

end Cutting

/-! ## The messages of a trace that grows (R51, R82) -/

section Messages

variable {P : Type} [DecidableEq P] [LT P] [DecidableLT P]

theorem cutStretches_singleton (es : List (Event P)) : cutStretches [es] = stretchMessages es := by
  cases hes : stretchMessages es <;> simp [cutStretches, hes]

/-- The converse of `cutStretches_append`. -/
theorem cutStretches_append_eq_some {a b : List (List (Event P))} {ms : List Message}
    (hms : cutStretches (a ++ b) = some ms) :
    ∃ ns ps, cutStretches a = some ns ∧ cutStretches b = some ps ∧ ms = ns ++ ps := by
  induction a generalizing ms with
  | nil => exact ⟨[], ms, rfl, hms, rfl⟩
  | cons x a ih =>
    simp only [List.cons_append, cutStretches] at hms
    split at hms
    · next m n hx hn =>
      obtain ⟨ns, ps, ha, hb, rfl⟩ := ih hn
      cases hms
      exact ⟨m ++ ns, ps, by simp [cutStretches, hx, ha], hb, by simp⟩
    · cases hms

/-- A pin that is high after some events from one shadow is so from another where it is high if it is in the
first. -/
theorem Pins.level_applyAll_high_of_imp {a b : Pins P} {q : P}
    (hab : (a.get q).level = .high → (b.get q).level = .high) (es : List (Event P)) :
    ((a.applyAll es).get q).level = .high → ((b.applyAll es).get q).level = .high := by
  induction es generalizing a b with
  | nil => exact hab
  | cons e es ih =>
    refine ih ?_
    rw [Pins.level_apply, Pins.level_apply]
    split_ifs
    · exact id
    · exact id
    · exact hab

/-- A pin that is not high after a trace is not high after its last stretch alone. -/
theorem level_sinceInit_ne_high {trace : List (Event P)} {q : P}
    (hq : ((Pins.applyAll [] trace).get q).level ≠ .high) :
    ((Pins.applyAll [] (sinceInit trace)).get q).level ≠ .high := by
  obtain ⟨pre, hpre⟩ := sinceInit_suffix trace
  rw [← hpre, Pins.applyAll_append] at hq
  exact fun hhigh => hq (Pins.level_applyAll_high_of_imp (fun h => by cases h) _ hhigh)

/-- Bus words on the handle of the last INIT, once its single-nibble words are sent, are messages of their own
and disturb no earlier one. -/
theorem messages_append_sends {trace es : List (Event P)} {h : Handle P} {ms : List Message}
    {ws : List BusWord} (hms : messages trace = some ms) (hhalf : ∀ w, Message.half w ∉ ms)
    (hh : handleOfInit (sinceInit trace) = some h) (hfour : 4 ≤ (latchedView h [] (sinceInit trace)).length)
    (hen : ((Pins.applyAll [] trace).get h.en).level ≠ .high) (hes : Sends h es ws)
    (hcfg : ∀ e ∈ es, e.isCfg = false) : messages (trace ++ es) = some (ms ++ ws.map .word) := by
  obtain ⟨pre, hsplit⟩ := splitInits_append_noCfg trace
  have htrace := hsplit [] (by simp)
  rw [List.append_nil, List.append_nil] at htrace
  rw [messages, htrace] at hms
  obtain ⟨ms₁, ms₂, hpre, hlast, rfl⟩ := cutStretches_append_eq_some hms
  rw [cutStretches_singleton, stretchMessages, hh] at hlast
  have hnew : cutStretches [sinceInit trace ++ es] = some (ms₂ ++ ws.map .word) := by
    rw [cutStretches_singleton, stretchMessages, handleOfInit_append hh]
    simp only [cutInit]
    rw [latchedView_append, hes.latchedView (level_sinceInit_ne_high hen),
      cutSingles_append hfour hlast fun w hw => hhalf w (List.mem_append_right _ hw), pairUp_transfers]
    rfl
  rw [messages, hsplit es hcfg, cutStretches_append hpre hnew, List.append_assoc]

/-- An INIT adds its own messages. -/
theorem messages_append_initEvents {trace : List (Event P)} {ms : List Message}
    (htrace : ∀ e, trace.getLast? = some e → e.isCfg = false) (hms : messages trace = some ms)
    (c : Config) {h : Handle P} (hd : h.distinct) :
    messages (trace ++ initEvents c h) = some (ms ++ initMessages c) := by
  rw [messages, splitInits_append_initEvents htrace]
  refine cutStretches_append hms ?_
  rw [cutStretches_singleton, stretchMessages, handleOfInit_initEvents]
  exact cutInit_initEvents c hd (by simp [Pins.get, Pin.untouched])

end Messages

/-! ## The framing after each kind of operation -/

theorem half_not_mem_of_emittable {c : Config} {ms : List Message} (hms : ms.all (emittable c) = true)
    (w : NibbleWord) : Message.half w ∉ ms := by
  intro hw
  cases List.all_eq_true.1 hms _ hw

theorem isCfg_of_mem_apiEvents {i : Instr} {events : Config → Handle → List Event}
    (hev : apiEvents i = some events) (c : Config) (h : Handle) :
    ∀ e ∈ events c h, e.isCfg = false := by
  cases i with
  | clear => cases hev; exact isCfg_of_mem_clearEvents c h
  | setCursor row column => cases hev; exact isCfg_of_mem_sendByte c h _ _
  | print text => cases hev; exact isCfg_of_mem_data c h text
  | printGlyph code => cases hev; exact isCfg_of_mem_sendByte c h _ _
  | createGlyph index bitmap =>
    cases hev
    simp only [createGlyphEvents, List.forall_mem_append]
    exact ⟨⟨isCfg_of_mem_sendByte c h _ _, isCfg_of_mem_data c h _⟩, isCfg_of_mem_sendByte c h _ _⟩
  | _ => cases hev

/-- `Ready` is reached through INIT only (R25). -/
theorem State.Inv.handle_of_ready {s : State} (hs : s.Inv) (hb : s.busy = false) (hseq : s.seq = .ready) :
    ∃ h, s.handle = some h := by
  cases hh : s.handle with
  | some h => exact ⟨h, rfl⟩
  | none =>
    have hrest := hs.atRest hb
    simp [State.atRest, hh, hseq] at hrest

/-- A refusal keeps the framing (R175). -/
theorem State.framed.after_refuse {s : State} (hs : s.framed) (g : Ground) : (refuse g s).framed := hs

/-- The stream is no part of the framing. -/
theorem State.framed.withStream {s : State} (hs : s.framed) (stream : List Byte) :
    State.framed { s with stream := stream } := hs

/-- Of a state in which a provider has failed the framing says nothing (R180). -/
theorem State.framed.of_busy {s : State} (hb : s.busy = true) : s.framed := fun hb' => by
  rw [hb] at hb'
  cases hb'

/-- A Display API operation run to its end keeps the framing. -/
theorem State.framed.after_api {s : State} {h : Handle} (hs : s.framed) (hinv : s.Inv)
    (hstd : standardBytes s.config) (hr : s.readyOn h) {i : Instr}
    {events : Config → Handle → List Event} (hev : apiEvents i = some events) :
    (s.emitted (events s.config h)).framed := by
  obtain ⟨-, hb, -, hh⟩ := hr
  obtain ⟨⟨ms, hms, hall⟩, hlast, hend⟩ := hs hb
  obtain ⟨hinit, hfour⟩ := hlast h hh
  obtain ⟨-, hd, -, hen, -⟩ := (State.atRest_iff_of_handle hh).1 (hinv.atRest hb)
  obtain ⟨⟨hl, -⟩, ⟨-, hpins⟩, -⟩ := hinv
  obtain ⟨ws, hws, hemit⟩ := sends_apiEvents hev hd hstd hl
  have hcfg := isCfg_of_mem_apiEvents hev s.config h
  have hen' : ((Pins.applyAll [] s.trace).get h.en).level ≠ .high := by simp [← hpins, hen]
  intro _
  refine ⟨⟨_, messages_append_sends hms (half_not_mem_of_emittable hall) hinit hfour hen' hws hcfg, ?_⟩,
    fun h' hh' => ?_, fun e he => ?_⟩
  · rw [State.emitted_config, List.all_append, hall, List.all_eq_true.2 (List.forall_mem_map.2 hemit)]
    rfl
  · obtain rfl : h = h' := Option.some.inj (hh.symm.trans hh')
    rw [State.emitted_trace, sinceInit_append_noCfg _ hcfg, latchedView_append, List.length_append]
    exact ⟨handleOfInit_append hinit _, by omega⟩
  · rw [State.emitted_trace, List.getLast?_append, Option.or_eq_some_iff] at he
    rcases he with hnew | ⟨-, hold⟩
    · exact hcfg e (List.mem_of_getLast? hnew)
    · exact hend e hold

/-- Whatever a Display API operation does, it keeps the framing. -/
theorem State.framed.after_apiOperation {s : State} (hs : s.framed) (hinv : s.Inv)
    (hstd : standardBytes s.config) {i : Instr} {events : Config → Handle → List Event}
    (hev : apiEvents i = some events) : (apiOperation events s).framed := by
  rcases apiOperation_cases s events hinv.handle_of_ready hinv.busy_eq with
    ⟨g, -, hx⟩ | ⟨h, hr, ⟨-, hx⟩ | ⟨pre, e, post, -, -, -, hx⟩⟩
  · rw [hx]; exact hs.after_refuse g
  · rw [hx]; exact hs.after_api hinv hstd hr hev
  · rw [hx]; exact State.framed.of_busy rfl

/-- An INIT run to its end keeps the framing. -/
theorem State.framed.after_init {s : State} {h : Handle} (hs : s.framed) (hl : s.config.legalGeometry)
    (hstd : standardBytes s.config) (ha : s.acceptsInit h) :
    State.framed { s.emitted (initEvents s.config h) with handle := some h, seq := .ready } := by
  obtain ⟨hb, -, hd, -⟩ := ha
  obtain ⟨⟨ms, hms, hall⟩, -, hend⟩ := hs hb
  intro _
  refine ⟨⟨_, messages_append_initEvents hend hms s.config hd, ?_⟩, fun h' hh' => ?_, fun e he => ?_⟩
  · simp only [List.all_append, hall, emittable_initMessages hstd hl, State.emitted_config]
    rfl
  · cases hh'
    simp only [State.emitted_trace, sinceInit_append_initEvents hend]
    rw [latchedView_initEvents s.config hd (by simp [Pins.get, Pin.untouched])]
    exact ⟨handleOfInit_initEvents s.config h, by simp⟩
  · simp only [State.emitted_trace, List.getLast?_append, getLast?_initEvents] at he
    cases he
    rfl

/-- Whatever an INIT does, it keeps the framing. -/
theorem State.framed.after_initOperation {s : State} (hs : s.framed) (hinv : s.Inv)
    (hstd : standardBytes s.config) (h : Handle) : (initOperation h s).framed := by
  rcases initOperation_cases s h hinv.busy_eq with ⟨g, -, hx⟩ | ⟨ha, -, hx⟩ | ⟨-, -, -, -, hb, -, -⟩
  · rw [hx]; exact hs.after_refuse g
  · obtain ⟨⟨hl, -⟩, -⟩ := hinv
    rw [hx]; exact hs.after_init hl hstd ha
  · exact State.framed.of_busy hb

/-- Settles O47: where a step leaves the block not busy it has waited, refused, or run one host operation to its
last event, and each of these keeps the framing. -/
theorem stepKeepsTheFraming : Obligations.StepKeepsTheFraming := by
  unfold Obligations.StepKeepsTheFraming
  intro s t hinv hstd hs h
  obtain ⟨-, rfl | ⟨-, rfl⟩ | ⟨i, rest, -, hdec, hx⟩⟩ := step_cases h
  · exact hs
  · exact (hs.withStream _).after_refuse .malformed
  · have hinv' := hinv.withStream rest
    have hs' := hs.withStream rest
    rcases exec_cases i { s with stream := rest } with
      ⟨rs, en, d4, d5, d6, d7, -, hx'⟩ | ⟨ev, hev, -, hx'⟩ | ⟨-, -, hlayer, -⟩
    · cases hx'.symm.trans hx
      exact hs'.after_initOperation hinv' hstd _
    · cases hx'.symm.trans hx
      exact hs'.after_apiOperation hinv' hstd hev
    · exact absurd (layer_of_decode hdec) hlayer

end Sys2Proof.Machine

/-! # The encodings (R71 to R74, R80 to R83, R90) -/

namespace Sys2Proof.Machine

/-! ## What the host command stream spells (R72, R73) -/

/-- Settles O8. -/
theorem hostOperationsDecodeFromTheirEncoding : Obligations.HostOperationsDecodeFromTheirEncoding :=
  fun _ rest hi hw => decode_encode_append hi hw rest

section Spelling

variable {bytes rest : List Byte} {i : Instr}

/-- `bytes` spell the well-formed operation `i` and leave `rest`. -/
def Spells (bytes : List Byte) (i : Instr) (rest : List Byte) : Prop :=
  bytes = encode i ++ rest ∧ i.wellFormed = true

theorem spells_of_decodeHI (h : decodeHI bytes = .instr i rest) : Spells (0x01 :: bytes) i rest := by
  unfold decodeHI at h
  split at h
  · cases h; exact ⟨rfl, rfl⟩
  · cases h

theorem spells_of_decodeHRC (h : decodeHRC bytes = .instr i rest) : Spells (0x03 :: bytes) i rest := by
  unfold decodeHRC at h
  split at h
  · cases h; exact ⟨rfl, rfl⟩
  · cases h

/-- PRINT's text has the length its length byte tells, and a byte tells at most 255 (R74). -/
theorem spells_of_decodeHT (h : decodeHT bytes = .instr i rest) : Spells (0x04 :: bytes) i rest := by
  unfold decodeHT at h
  split at h
  next len codes =>
    split at h
    next hle =>
      cases h
      have hlen : (codes.take len.toNat).length = len.toNat := List.length_take_of_le hle
      have hfit : (codes.take len.toNat).length ≤ 255 := hlen.trans_le (Nat.le_of_lt_succ len.isLt)
      exact ⟨by simp [encode, hlen], decide_eq_true hfit⟩
    next => cases h
  next => cases h

theorem spells_of_decodeHB (h : decodeHB bytes = .instr i rest) : Spells (0x05 :: bytes) i rest := by
  unfold decodeHB at h
  split at h
  · cases h; exact ⟨rfl, rfl⟩
  · cases h

theorem spells_of_decodeHG (h : decodeHG bytes = .instr i rest) : Spells (0x06 :: bytes) i rest := by
  unfold decodeHG at h
  split at h
  · cases h; exact ⟨rfl, rfl⟩
  · cases h

/-- The bytes an operation was decoded from spell it (R72, R73). -/
theorem spells_of_decode (h : decode bytes = .instr i rest) : Spells bytes i rest := by
  cases bytes with
  | nil => cases h
  | cons opcode bytes =>
    have hop {k : Byte} (hk : opcode.toNat = k.toNat) : opcode = k := BitVec.eq_of_toNat_eq hk
    simp only [decode] at h
    split at h
    next hk => rw [hop (k := 0x01) hk]; exact spells_of_decodeHI h
    next hk => rw [hop (k := 0x02) hk]; cases h; exact ⟨rfl, rfl⟩
    next hk => rw [hop (k := 0x03) hk]; exact spells_of_decodeHRC h
    next hk => rw [hop (k := 0x04) hk]; exact spells_of_decodeHT h
    next hk => rw [hop (k := 0x05) hk]; exact spells_of_decodeHB h
    next hk => rw [hop (k := 0x06) hk]; exact spells_of_decodeHG h
    next => cases h

end Spelling

/-- Settles O9. -/
theorem decodedBytesAreTheEncoding : Obligations.DecodedBytesAreTheEncoding := by
  unfold Obligations.DecodedBytesAreTheEncoding
  intro bytes rest i h
  obtain ⟨hbytes, hw⟩ := spells_of_decode h
  exact ⟨hbytes, layer_of_decode h, hw⟩

/-! ## What spells no operation (R90, R179) -/

theorem decode_of_reserved {b : Byte} (hb : b.toNat = 0 ∨ 7 ≤ b.toNat) (rest : List Byte) :
    decode (b :: rest) = .reservedOpcode b := by
  simp only [decode]
  split
  case h_7 => rfl
  all_goals omega

theorem decode_cons_ne_empty (b : Byte) (bytes : List Byte) : decode (b :: bytes) ≠ .empty := by
  simp only [decode]
  split
  · unfold decodeHI; split <;> simp
  · simp
  · unfold decodeHRC; split <;> simp
  · unfold decodeHT; split
    · split <;> simp
    · simp
  · unfold decodeHB; split <;> simp
  · unfold decodeHG; split <;> simp
  · simp

/-- No operation's encoding begins another's: what a proper beginning spells, the whole spells too. -/
theorem decode_take_encode_ne_instr {i : Instr} {n : Nat} (hi : i.layer = .host)
    (hw : i.wellFormed = true) (hn : n < (encode i).length) (j : Instr) (rest : List Byte) :
    decode ((encode i).take n) ≠ .instr j rest := by
  intro h
  obtain ⟨htake, hwj⟩ := spells_of_decode h
  have hwhole : encode i ++ [] = encode j ++ (rest ++ (encode i).drop n) := by
    rw [← List.append_assoc, ← htake, List.take_append_drop, List.append_nil]
  have hsame : Decoded.instr i [] = .instr j (rest ++ (encode i).drop n) := by
    rw [← decode_encode_append hi hw, hwhole, decode_encode_append (layer_of_decode h) hwj]
  obtain ⟨-, hrest⟩ := Decoded.instr.inj hsame
  have hdrop : (encode i).drop n = [] := (List.append_eq_nil_iff.1 hrest.symm).2
  exact absurd (List.drop_eq_nil_iff.1 hdrop) (Nat.not_le.2 hn)

/-- A stream that is not empty and spells no operation is refused (R90, R179). -/
theorem step_of_no_instr {s : State} (hl : s.config.legal) (hb : s.busy = false)
    (hne : s.stream ≠ []) (hno : ∀ i rest, decode s.stream ≠ .instr i rest) :
    step s = .next (refuseMalformed s) := by
  cases hd : decode s.stream with
  | empty =>
    obtain ⟨b, bytes, hs⟩ := List.exists_cons_of_ne_nil hne
    exact absurd (hs ▸ hd) (decode_cons_ne_empty b bytes)
  | instr i rest => exact absurd hd (hno i rest)
  | reservedOpcode b => rw [step, fetch_of_malformed hl hb (.inl ⟨b, hd⟩)]
  | truncated => rw [step, fetch_of_malformed hl hb (.inr hd)]

/-- Settles O7: neither a reserved opcode nor a proper beginning spells an operation. -/
theorem malformedRequestIsRefused : Obligations.MalformedRequestIsRefused := by
  unfold Obligations.MalformedRequestIsRefused
  rintro s hl hb (⟨b, rest, hs, hop⟩ | ⟨i, n, hi, hw, hpos, hn, hs⟩)
  · have hno : ∀ j rest', decode s.stream ≠ .instr j rest' := fun j rest' => by
      simp [hs, decode_of_reserved hop]
    exact step_of_no_instr hl hb (hs ▸ List.cons_ne_nil b rest) hno
  · have hne : s.stream ≠ [] := by
      rw [hs, ← List.length_pos_iff, List.length_take]
      omega
    exact step_of_no_instr hl hb hne (hs ▸ decode_take_encode_ne_instr hi hw hn)

/-- Settles O11, by evaluation. -/
theorem wordsOfTheSpecDecode : Obligations.WordsOfTheSpecDecode := by
  unfold Obligations.WordsOfTheSpecDecode
  decide

/-! ## Decoding and encoding of the 9-bit bus words (R80, R83) -/

theorem decodeBus_wordFunctionSet (l n f : Bool) (x : BitVec 2) :
    decodeBus (wordFunctionSet l n f x) = some (.functionSet l n f x) := by
  have hx : (wordFunctionSet l n f x).db.extractLsb' 0 2 = x := BitVec.extractLsb'_append_eq_right
  rw [decodeBus, hx]
  simp only [wordFunctionSet, BitVec.getLsbD_append]
  simp [bit]

theorem decodeBus_wordDisplayControl (d c b : Bool) :
    decodeBus (wordDisplayControl d c b) = some (.displayControl d c b) := by
  simp only [decodeBus, wordDisplayControl, BitVec.getLsbD_append]
  simp [bit]

theorem decodeBus_wordEntryModeSet (i s : Bool) :
    decodeBus (wordEntryModeSet i s) = some (.entryModeSet i s) := by
  simp only [decodeBus, wordEntryModeSet, BitVec.getLsbD_append]
  simp [bit]

theorem decodeBus_wordSetDdramAddr (a : BitVec 7) :
    decodeBus (wordSetDdramAddr a) = some (.setDdramAddr a) := by
  have ha : (wordSetDdramAddr a).db.extractLsb' 0 7 = a := BitVec.extractLsb'_append_eq_right
  rw [decodeBus, ha]
  simp only [wordSetDdramAddr, BitVec.getLsbD_append]
  simp

theorem decodeBus_wordSetCgramAddr (a : BitVec 6) :
    decodeBus (wordSetCgramAddr a) = some (.setCgramAddr a) := by
  have ha : (wordSetCgramAddr a).db.extractLsb' 0 6 = a := BitVec.extractLsb'_append_eq_right
  rw [decodeBus, ha]
  simp only [wordSetCgramAddr, BitVec.getLsbD_append]
  simp

theorem decodeBus_of_encodeBus {i : Instr} {w : BusWord} (h : encodeBus i = some w) :
    decodeBus w = some i := by
  cases i with
  | functionSet l n f x => cases h; exact decodeBus_wordFunctionSet l n f x
  | displayControl d c b => cases h; exact decodeBus_wordDisplayControl d c b
  | clearDisplay => cases h; rfl
  | entryModeSet i s => cases h; exact decodeBus_wordEntryModeSet i s
  | setDdramAddr a => cases h; exact decodeBus_wordSetDdramAddr a
  | setCgramAddr a => cases h; exact decodeBus_wordSetCgramAddr a
  | writeData d => cases h; rfl
  | _ => cases h

/-- Two commands are the same word if their bytes agree bit by bit. -/
theorem some_command_eq {a b : Byte} (hab : ∀ k < 8, a.getLsbD k = b.getLsbD k) :
    some (BusWord.mk false a) = some ⟨false, b⟩ := by
  rw [BitVec.eq_of_getLsbD_eq hab]

/-- A row's leading bits are those the decoder has tested, its fields those it has read. -/
theorem encodeBus_of_decodeBus {i : Instr} {w : BusWord} (h : decodeBus w = some i) :
    encodeBus i = some w := by
  obtain ⟨rs, db⟩ := w
  cases rs with
  | true => cases h; rfl
  | false =>
    simp only [decodeBus, Bool.false_eq_true, if_false] at h
    split_ifs at h with h7 h6 h5 h4 h3 h2 h1 h0
    all_goals
      cases h
      refine some_command_eq fun k hk => ?_
      interval_cases k
      all_goals simp only [BitVec.getLsbD_append, *]
      all_goals simp [bit, *]

/-- Settles O10. -/
theorem busWordsDecodeAndEncodeAgree : Obligations.BusWordsDecodeAndEncodeAgree :=
  fun _ _ => ⟨encodeBus_of_decodeBus, decodeBus_of_encodeBus⟩

/-! ## How the bus words go out (R80, R81) -/

theorem exec_of_engineEvents {i : Instr} {events : Config → Handle → List Event}
    (hev : engineEvents i = some events) (s : State) : exec i s = .next (engineOperation events s) := by
  cases i <;> cases hev <;> rfl

/-- A primitive or bus word in which no provider fails emits its events and does nothing else. -/
theorem exec_engine_of_quiet {i : Instr} {events : Config → Handle → List Event}
    (hev : engineEvents i = some events) {s : State} {h : Handle} (hs : s.engineOn h)
    (hq : s.quiet (events s.config h)) : exec i s = .next (s.emitted (events s.config h)) := by
  rw [exec_of_engineEvents hev, engineOperation_of_on hs hq]

/-- Settles O16. -/
theorem singleNibbleWordsAreOneNibble : Obligations.SingleNibbleWordsAreOneNibble := by
  unfold Obligations.SingleNibbleWordsAreOneNibble
  intro s h hs
  have hreset : engineEvents .resetNibble = some (fun c h => transmitNibble c h 0x3) := rfl
  have hmode4 : engineEvents .mode4Nibble = some (fun c h => transmitNibble c h 0x2) := rfl
  exact ⟨exec_engine_of_quiet hreset hs, exec_engine_of_quiet hmode4 hs⟩

theorem engineEvents_of_encodeBus {i : Instr} {w : BusWord} (hw : encodeBus i = some w) :
    engineEvents i = some (fun c h => sendWord c h w) := by
  cases i <;> cases hw <;> rfl

/-- "A bus word is conveyed by one SEND_BYTE" (R80). -/
theorem exec_of_encodeBus {i : Instr} {rs : Bool} {db : Byte} (hw : encodeBus i = some ⟨rs, db⟩)
    {s : State} {h : Handle} (hs : s.engineOn h) (hq : s.quiet (sendByte s.config h db rs)) :
    exec i s = .next (s.emitted (sendByte s.config h db rs)) :=
  exec_engine_of_quiet (engineEvents_of_encodeBus hw) hs hq

/-! ### The words as numbers (R83) -/

theorem toNat_append_eq_add {m n : Nat} (x : BitVec m) (y : BitVec n) :
    (x ++ y).toNat = 2 ^ n * x.toNat + y.toNat := by
  rw [BitVec.toNat_append, Nat.shiftLeft_eq, Nat.mul_comm, Nat.two_pow_add_eq_or_of_lt y.isLt]

theorem encodeBus_functionSet (l n f : Bool) (x : BitVec 2) : encodeBus (.functionSet l n f x) =
    some ⟨false, BitVec.ofNat 8
      (0x20 + 0x10 * l.toNat + 0x08 * n.toNat + 0x04 * f.toNat + x.toNat)⟩ := by
  decide +revert

theorem encodeBus_displayControl (d c b : Bool) : encodeBus (.displayControl d c b) =
    some ⟨false, BitVec.ofNat 8 (0x08 + 0x04 * d.toNat + 0x02 * c.toNat + b.toNat)⟩ := by
  decide +revert

theorem encodeBus_entryModeSet (i s : Bool) : encodeBus (.entryModeSet i s) =
    some ⟨false, BitVec.ofNat 8 (0x04 + 0x02 * i.toNat + s.toNat)⟩ := by
  decide +revert

theorem encodeBus_setDdramAddr (a : BitVec 7) :
    encodeBus (.setDdramAddr a) = some ⟨false, BitVec.ofNat 8 (0x80 + a.toNat)⟩ := by
  have hdb : 0b1#1 ++ a = BitVec.ofNat 8 (0x80 + a.toNat) := by
    apply BitVec.eq_of_toNat_eq
    rw [toNat_append_eq_add, BitVec.toNat_ofNat, BitVec.toNat_ofNat]
    omega
  rw [encodeBus, wordSetDdramAddr, hdb]

theorem encodeBus_setCgramAddr (a : BitVec 6) :
    encodeBus (.setCgramAddr a) = some ⟨false, BitVec.ofNat 8 (0x40 + a.toNat)⟩ := by
  have hdb : 0b01#2 ++ a = BitVec.ofNat 8 (0x40 + a.toNat) := by
    apply BitVec.eq_of_toNat_eq
    rw [toNat_append_eq_add, BitVec.toNat_ofNat, BitVec.toNat_ofNat]
    omega
  rw [encodeBus, wordSetCgramAddr, hdb]

/-- Settles O17: each of the words is its row's encoding, and what an encoding spells goes out as one
SEND_BYTE. -/
theorem busWordsGoOutAsOneSendByte : Obligations.BusWordsGoOutAsOneSendByte := by
  unfold Obligations.BusWordsGoOutAsOneSendByte
  intro s h hs
  exact ⟨fun l n f x => exec_of_encodeBus (encodeBus_functionSet l n f x) hs,
    fun d c b => exec_of_encodeBus (encodeBus_displayControl d c b) hs,
    exec_of_encodeBus rfl hs,
    fun i sh => exec_of_encodeBus (encodeBus_entryModeSet i sh) hs,
    fun a => exec_of_encodeBus (encodeBus_setDdramAddr a) hs,
    fun a => exec_of_encodeBus (encodeBus_setCgramAddr a) hs,
    fun _ => exec_of_encodeBus rfl hs⟩

/-- Settles O41: SEND_BYTE sends its bus word. -/
theorem sendByteLatchesHighThenLow : Obligations.SendByteLatchesHighThenLow :=
  fun _ _ _ value isData hd _ hen => (Sends.sendByte hd value isData).latchedView hen

/-! ## A text in two pieces (R96, R150) -/

/-- A Display API operation in which no provider fails emits its events and does nothing else (R160). -/
theorem exec_api_of_quiet {i : Instr} {events : Config → Handle → List Event}
    (hev : apiEvents i = some events) {s : State} {h : Handle} (hs : s.readyOn h)
    (hq : s.quiet (events s.config h)) : exec i s = .next (s.emitted (events s.config h)) := by
  rw [exec_of_apiEvents hev, apiOperation_of_ready hs hq]

theorem printEvents_append (a b : List Byte) (c : Config) (h : Handle) :
    printEvents (a ++ b) c h = printEvents a c h ++ printEvents b c h := List.flatMap_append

/-- Settles O27: the first piece leaves the block ready, with the same providers, for the second. -/
theorem printOfTwoPiecesIsPrintOfTheWhole : Obligations.PrintOfTwoPiecesIsPrintOfTheWhole := by
  unfold Obligations.PrintOfTwoPiecesIsPrintOfTheWhole
  intro s t h a b hs ha hb hx
  have hfirst : exec (.print a) s = .next (s.emitted (printEvents a s.config h)) :=
    exec_api_of_quiet rfl hs ha
  have hwhole : s.quiet (printEvents (a ++ b) s.config h) := by
    rw [printEvents_append]
    exact State.quiet_append.2 ⟨ha, hb⟩
  cases hfirst.symm.trans hx
  calc exec (.print b) (s.emitted (printEvents a s.config h))
      = .next ((s.emitted (printEvents a s.config h)).emitted (printEvents b s.config h)) :=
        exec_api_of_quiet (s := s.emitted _) rfl hs hb
    _ = .next (s.emitted (printEvents (a ++ b) s.config h)) := by
        rw [State.emitted_emitted, printEvents_append]
    _ = exec (.print (a ++ b)) s := (exec_api_of_quiet rfl hs hwhole).symm

end Sys2Proof.Machine

/-! # The Protocol Engine (R100 to R111) -/

namespace Sys2Proof.Machine

/-! ## A step of a legal configuration (R8, R9, R110) -/

/-- No operation faults or is refused without a next state (R170, R175). -/
theorem exec_answers_next (i : Instr) (s : State) : ∃ t, exec i s = .next t := by
  rcases exec_cases i s with ⟨_, _, _, _, _, _, -, hx⟩ | ⟨_, -, -, hx⟩ | ⟨_, -, -, hx⟩
  all_goals exact ⟨_, hx⟩

theorem step_of_illegal {s : State} (hl : ¬ s.config.legal) : step s = .refused .illegalConfiguration := by
  rw [step, fetch, if_neg hl]

theorem step_of_wait {s : State} (hl : s.config.legal) (hw : s.busy = true ∨ decode s.stream = .empty) :
    step s = .next s := by
  rw [step, fetch_of_wait hl hw]

/-- The port waits, refuses a malformed request, or hands over one operation; each of them answers. -/
theorem step_answers_next {s : State} (hl : s.config.legal) : ∃ t, step s = .next t := by
  cases hb : s.busy with
  | true => exact ⟨s, step_of_wait hl (.inl hb)⟩
  | false =>
    cases hd : decode s.stream with
    | empty => exact ⟨s, step_of_wait hl (.inr hd)⟩
    | instr i rest => rw [step_of_decode hl hb hd]; exact exec_answers_next i _
    | reservedOpcode b => exact ⟨_, by rw [step, fetch_of_malformed hl hb (.inl ⟨b, hd⟩)]⟩
    | truncated => exact ⟨_, by rw [step, fetch_of_malformed hl hb (.inr hd)]⟩

/-- Settles O3. -/
theorem stepAnswersNextExactlyWhenConfigurationLegal :
    Obligations.StepAnswersNextExactlyWhenConfigurationLegal :=
  fun _ => ⟨step_of_illegal, step_answers_next⟩

/-! ## The primitives (R100 to R108)

Each primitive in which no provider fails, once; the events that the statements write out are then its own. -/

theorem exec_pulseEnable_of_quiet {s : State} {h : Handle} (hs : s.engineOn h)
    (hq : s.quiet (pulseEnable s.config h)) :
    exec .pulseEnable s = .next (s.emitted (pulseEnable s.config h)) := by
  have hev : engineEvents .pulseEnable = some pulseEnable := rfl
  exact exec_engine_of_quiet hev hs hq

theorem exec_transmitNibble_of_quiet {v : Nibble} {s : State} {h : Handle} (hs : s.engineOn h)
    (hq : s.quiet (transmitNibble s.config h v)) :
    exec (.transmitNibble v) s = .next (s.emitted (transmitNibble s.config h v)) := by
  have hev : engineEvents (.transmitNibble v) = some (fun c h => transmitNibble c h v) := rfl
  exact exec_engine_of_quiet hev hs hq

theorem exec_sendByte_of_quiet {value : Byte} {isData : Bool} {s : State} {h : Handle}
    (hs : s.engineOn h) (hq : s.quiet (sendByte s.config h value isData)) :
    exec (.sendByte value isData) s = .next (s.emitted (sendByte s.config h value isData)) := by
  have hev : engineEvents (.sendByte value isData) = some (fun c h => sendByte c h value isData) := rfl
  exact exec_engine_of_quiet hev hs hq

/-- Settles O12. -/
theorem pulseEnableEmitsLowHighLow : Obligations.PulseEnableEmitsLowHighLow := by
  unfold Obligations.PulseEnableEmitsLowHighLow
  refine ⟨rfl, ?_⟩
  intro s h hs es hq
  have hes : pulseEnable s.config h = es := rfl
  rw [← hes] at hq ⊢
  exact exec_pulseEnable_of_quiet hs hq

/-- Settles O13. -/
theorem transmitNibbleDrivesD4ToD7ThenPulses : Obligations.TransmitNibbleDrivesD4ToD7ThenPulses := by
  unfold Obligations.TransmitNibbleDrivesD4ToD7ThenPulses
  intro s h v hs bit es hq
  have hes : transmitNibble s.config h v = es := rfl
  rw [← hes] at hq ⊢
  exact exec_transmitNibble_of_quiet hs hq

/-- Settles O14. -/
theorem sendByteSetsRsThenSendsHighNibbleFirst : Obligations.SendByteSetsRsThenSendsHighNibbleFirst := by
  unfold Obligations.SendByteSetsRsThenSendsHighNibbleFirst
  intro s h value isData hs nibble es hq
  have hes : sendByte s.config h value isData = es := rfl
  rw [← hes] at hq ⊢
  exact exec_sendByte_of_quiet hs hq

/-- SEND_COMMAND(value) = SEND_BYTE(value, false) (R106). -/
theorem exec_sendCommand (value : Byte) (s : State) :
    exec (.sendCommand value) s = exec (.sendByte value false) s := rfl

/-- SEND_DATA(value) = SEND_BYTE(value, true) (R108). -/
theorem exec_sendData (value : Byte) (s : State) :
    exec (.sendData value) s = exec (.sendByte value true) s := rfl

/-- Settles O15: both are SEND_BYTE, which leaves RS at `isData`. -/
theorem sendCommandAndSendDataFixIsData : Obligations.SendCommandAndSendDataFixIsData := by
  unfold Obligations.SendCommandAndSendDataFixIsData
  intro s value
  refine ⟨rfl, rfl, exec_sendCommand value s, exec_sendData value s, fun h hs => ⟨?_, ?_, ?_⟩⟩
  · intro hq
    rw [exec_sendCommand, exec_sendByte_of_quiet hs hq]
  · intro hq
    rw [exec_sendData, exec_sendByte_of_quiet hs hq]
  · intro hd _
    exact ⟨level_rs_sendByte s.config hd value false s.pins, level_rs_sendByte s.config hd value true s.pins⟩

/-! ## How many events (R111, R120, R160) -/

section Counts

variable {P : Type} (c : Config) (h : Handle P)

@[simp] theorem length_pulseEnable : (pulseEnable c h).length = 6 := rfl

@[simp] theorem length_transmitNibble (v : Nibble) : (transmitNibble c h v).length = 10 := rfl

@[simp] theorem length_sendByte (value : Byte) (isData : Bool) :
    (sendByte c h value isData).length = 21 := by
  simp [sendByte]

@[simp] theorem length_sendCommand (value : Byte) : (sendCommand c h value).length = 21 :=
  length_sendByte c h value false

@[simp] theorem length_sendData (value : Byte) : (sendData c h value).length = 21 :=
  length_sendByte c h value true

@[simp] theorem length_clearEvents : (clearEvents c h).length = 43 := by simp [clearEvents]

@[simp] theorem length_setCursorEvents (row column : Byte) :
    (setCursorEvents row column c h).length = 21 := length_sendCommand c h _

/-- 21 events per character. -/
@[simp] theorem length_printEvents (text : List Byte) :
    (printEvents text c h).length = 21 * text.length := by
  simp [printEvents, List.length_flatMap, Nat.mul_comm]

@[simp] theorem length_printGlyphEvents (code : Byte) : (printGlyphEvents code c h).length = 21 :=
  length_sendData c h code

@[simp] theorem length_rows (b : Bitmap) : b.rows.length = 8 := rfl

/-- The slot's address, the eight rows as a text of eight characters, the closing address. -/
@[simp] theorem length_createGlyphEvents (index : Byte) (b : Bitmap) :
    (createGlyphEvents index b c h).length = 210 := by
  have hrows : (b.rows.flatMap (sendData c h)).length = 168 := length_printEvents c h b.rows
  simp [createGlyphEvents, hrows]

/-- The transitions T1 to T8 of R121, one summand each. -/
@[simp] theorem length_initEvents : (initEvents c h).length = 158 := by
  have hinit : (initEvents c h).length = 9 + 33 + 10 + 21 + 21 + 43 + 21 + 0 := by
    simp [initEvents, initPhases, initStep1, initStep3]
  exact hinit

end Counts

/-- Settles O54. -/
theorem eventCounts : Obligations.EventCounts :=
  fun c h => ⟨length_pulseEnable c h, length_transmitNibble c h, length_sendByte c h, length_initEvents c h,
    length_clearEvents c h, length_setCursorEvents c h, length_printEvents c h, length_printGlyphEvents c h,
    length_createGlyphEvents c h⟩

end Sys2Proof.Machine

/-! # Initialization (R120 to R136) -/

namespace Sys2Proof.Machine

/-! ## The operation as a whole (R120, R122) -/

/-- An accepted INIT in which no provider fails writes the handle, emits its events and ends in `Ready`. -/
theorem exec_init_of_quiet {s : State} {h : Handle} (hs : s.acceptsInit h)
    (hq : s.quiet (initEvents s.config h)) :
    exec (.init h.rs h.en h.d4 h.d5 h.d6 h.d7) s = .next { s with
      handle := some h
      seq := .ready
      trace := s.trace ++ initEvents s.config h
      pins := s.pins.applyAll (initEvents s.config h) } := by
  rw [exec, execInit, initOperation_of_quiet hs hq, State.emitted]

/-- Settles O19: the events written out are INIT's own, its clear step (R129) the two commands of CLEAR. -/
theorem initRunsTheWholeHandshake : Obligations.InitRunsTheWholeHandshake := by
  unfold Obligations.InitRunsTheWholeHandshake
  intro s rs en d4 d5 d6 d7 h c es hs hq
  have hes : initEvents c h = es := by
    simp only [es, initEvents_eq, initHandshake, initCommands, initStep1, initStep3, clearEvents,
      ddramByte_zero, h, List.append_assoc]
  rw [← hes] at hq ⊢
  exact ⟨length_initEvents c h, exec_init_of_quiet hs hq⟩

/-! ## The pins INIT leaves behind (R29, R131) -/

section DataPins

variable {P : Type} [DecidableEq P] [LT P] [DecidableLT P] {h : Handle P}

/-- A pin stands as it was last driven. -/
theorem Pins.level_applyAll_of_last_drive {post : List (Event P)} {q : P}
    (hpost : ∀ e ∈ post, e.pin ≠ some q) (pre : List (Event P)) (b : Bool) (ps : Pins P) :
    ((ps.applyAll (pre ++ drive q b :: post)).get q).level = if b then .high else .low := by
  rw [Pins.applyAll_append, Pins.applyAll_cons, Pins.get_applyAll_of_pin_ne hpost,
    Pins.level_apply_drive]

/-- TRANSMIT_NIBBLE leaves its bits on the data pins (R45, R102). -/
theorem level_data_transmitNibble (c : Config) (hd : h.distinct) (v : Nibble) (ps : Pins P) :
    let level (q : P) := ((ps.applyAll (transmitNibble c h v)).get q).level
    level h.d4 = (if v.getLsbD 0 then .high else .low) ∧
      level h.d5 = (if v.getLsbD 1 then .high else .low) ∧
      level h.d6 = (if v.getLsbD 2 then .high else .low) ∧
      level h.d7 = (if v.getLsbD 3 then .high else .low) := by
  have hne := Handle.en_not_data hd
  simp only [Handle.distinct, Handle.pins, List.nodup_cons, List.mem_cons, List.not_mem_nil, or_false,
    not_or] at hd hne
  obtain ⟨-, -, ⟨h45, h46, h47⟩, ⟨h56, h57⟩, h67, -⟩ := hd
  obtain ⟨-, he4, he5, he6, he7⟩ := hne
  refine ⟨Pins.level_applyAll_of_last_drive ?_ [] _ ps,
    Pins.level_applyAll_of_last_drive ?_ [drive h.d4 (v.getLsbD 0)] _ ps,
    Pins.level_applyAll_of_last_drive ?_ [drive h.d4 (v.getLsbD 0), drive h.d5 (v.getLsbD 1)] _ ps,
    Pins.level_applyAll_of_last_drive ?_
      [drive h.d4 (v.getLsbD 0), drive h.d5 (v.getLsbD 1), drive h.d6 (v.getLsbD 2)] _ ps⟩
  · simp [pulseEnable, he4, Ne.symm h45, Ne.symm h46, Ne.symm h47]
  · simp [pulseEnable, he5, Ne.symm h56, Ne.symm h57]
  · simp [pulseEnable, he6, Ne.symm h67]
  · simp [pulseEnable, he7]

end DataPins

/-- The last nibble of INIT is the low half of the entry-mode byte (R130). -/
theorem transmitNibble_suffix_initEvents {P : Type} (c : Config) (h : Handle P) :
    transmitNibble c h (lowNibble c.byteEntryMode) <:+ initEvents c h := by
  have hbyte : transmitNibble c h (lowNibble c.byteEntryMode) <:+ sendCommand c h c.byteEntryMode :=
    (List.suffix_append _ _).trans (List.suffix_cons _ _)
  rw [initEvents_eq]
  exact (hbyte.trans (List.suffix_append _ _)).trans (List.suffix_append _ _)

theorem Pin.eq_mk {x : Pin} {dir : Dir} {level : Level} (hdir : x.dir = dir) (hlevel : x.level = level) :
    x = ⟨dir, level⟩ := by
  cases x
  cases hdir
  cases hlevel
  rfl

/-- Directions and E by R29, RS by the last byte, the data pins by the last nibble. -/
theorem get_applyAll_initEvents {c : Config} (hentry : c.byteEntryMode = 0x06) {h : Handle}
    (hd : h.distinct) (ps : Pins) :
    let pin (q : PinId) := (ps.applyAll (initEvents c h)).get q
    pin h.rs = ⟨.output, .low⟩ ∧ pin h.en = ⟨.output, .low⟩ ∧ pin h.d4 = ⟨.output, .low⟩ ∧
      pin h.d5 = ⟨.output, .high⟩ ∧ pin h.d6 = ⟨.output, .high⟩ ∧ pin h.d7 = ⟨.output, .low⟩ := by
  obtain ⟨hdir, hen, -⟩ := idle_applyAll_initEvents c h ps
  simp only [Handle.pins, List.forall_mem_cons] at hdir
  obtain ⟨dirRs, dirEn, dir4, dir5, dir6, dir7, -⟩ := hdir
  have hrs := (initEvents_endsWithByte c h).level_rs hd ps
  obtain ⟨pre, hpre⟩ := transmitNibble_suffix_initEvents c h
  obtain ⟨h4, h5, h6, h7⟩ := level_data_transmitNibble c hd (lowNibble c.byteEntryMode) (ps.applyAll pre)
  rw [← Pins.applyAll_append, hpre, hentry] at h4 h5 h6 h7
  exact ⟨Pin.eq_mk dirRs hrs, Pin.eq_mk dirEn hen, Pin.eq_mk dir4 h4, Pin.eq_mk dir5 h5,
    Pin.eq_mk dir6 h6, Pin.eq_mk dir7 h7⟩

/-- Settles O20. -/
theorem initLeavesThePinsIdle : Obligations.InitLeavesThePinsIdle := by
  unfold Obligations.InitLeavesThePinsIdle
  intro s rs en d4 d5 d6 d7 _ hentry hs hq
  obtain ⟨hb, -, hd, -⟩ := id hs
  refine ⟨_, exec_init_of_quiet hs hq, rfl, hb, rfl, ?_⟩
  simpa only using get_applyAll_initEvents hentry hd s.pins

/-! ## What INIT sends (R82, R132) -/

/-- INIT's words with the command bytes of R84. -/
theorem initWords_of_standardBytes {c : Config} (hstd : standardBytes c) :
    initWords c = [⟨false, 0x28⟩, ⟨false, 0x0C⟩, ⟨false, 0x01⟩, ⟨false, 0x80⟩, ⟨false, 0x06⟩] := by
  obtain ⟨hfunction, hcontrol, hclear, hbase, hentry, -⟩ := hstd
  rw [initWords, hfunction, hcontrol, hclear, ddramByte_zero, hbase, hentry]

/-- Settles O21: INIT's transfers and messages, with the words of R84. -/
theorem initLatchesFourteenTransfers : Obligations.InitLatchesFourteenTransfers := by
  unfold Obligations.InitLatchesFourteenTransfers
  intro c h ps hstd hd _ words
  have hwords : initMessages c = words := by
    rw [initMessages, initWords_of_standardBytes hstd]
    rfl
  rw [← hwords]
  refine ⟨fun hen => ⟨?_, cutInit_initEvents c hd hen⟩,
    fun trace ms hms htrace => messages_append_initEvents htrace hms c hd⟩
  rw [latchedView_initEvents c hd hen, initWords_of_standardBytes hstd]
  rfl

/-! ## No operation acts on other pins than its handle's (R133, R206, R211) -/

section ActsOn

variable {P : Type} {c : Config} {h : Handle P}

/-- Every pin that `es` acts on is one of the handle's. -/
def ActsOn (h : Handle P) (es : List (Event P)) : Prop := ∀ e ∈ es, ∀ p, e.pin = some p → p ∈ h.pins

namespace ActsOn

theorem append {a b : List (Event P)} (ha : ActsOn h a) (hb : ActsOn h b) : ActsOn h (a ++ b) :=
  List.forall_mem_append.2 ⟨ha, hb⟩

theorem flatMap {A : Type} {f : A → List (Event P)} (hf : ∀ x, ActsOn h (f x)) (xs : List A) :
    ActsOn h (xs.flatMap f) := by
  intro e he
  obtain ⟨x, -, he⟩ := List.mem_flatMap.1 he
  exact hf x e he

theorem of_prefix {pre es : List (Event P)} (hes : ActsOn h es) (hpre : pre <+: es) : ActsOn h pre :=
  fun e he => hes e (hpre.subset he)

theorem dms (n : Nat) : ActsOn h [.dms n] := by simp [ActsOn]

theorem pulseEnable : ActsOn h (Machine.pulseEnable c h) := by
  simp [ActsOn, Machine.pulseEnable, Handle.pins]

theorem transmitNibble (v : Nibble) : ActsOn h (Machine.transmitNibble c h v) := by
  refine append ?_ pulseEnable
  simp [ActsOn, Handle.pins]

theorem sendByte (value : Byte) (isData : Bool) : ActsOn h (Machine.sendByte c h value isData) := by
  have hrs : ActsOn h [drive h.rs isData] := by simp [ActsOn, Handle.pins]
  exact hrs.append ((transmitNibble _).append (transmitNibble _))

theorem clearEvents : ActsOn h (Machine.clearEvents c h) :=
  ((sendByte _ _).append (dms _)).append (sendByte _ _)

theorem printEvents (text : List Byte) : ActsOn h (Machine.printEvents text c h) :=
  flatMap (fun code => sendByte code true) text

theorem createGlyphEvents (index : Byte) (bitmap : Bitmap) :
    ActsOn h (Machine.createGlyphEvents index bitmap c h) :=
  ((sendByte _ _).append (printEvents bitmap.rows)).append (sendByte _ _)

theorem initEvents : ActsOn h (Machine.initEvents c h) := by
  have hstep1 : ActsOn h (initStep1 h) := by simp [ActsOn, initStep1, Handle.pins]
  have hreset (n : Nat) : ActsOn h (Machine.transmitNibble c h 0x3 ++ [.dms n]) :=
    (transmitNibble 0x3).append (dms n)
  have hstep3 : ActsOn h (initStep3 c h) := by
    simpa [initStep3] using ((hreset c.tReset1Ms).append (hreset c.tReset2Ms)).append (hreset c.tReset3Ms)
  rw [initEvents_eq]
  exact (((hstep1.append (dms _)).append hstep3).append (transmitNibble _)).append
    ((((sendByte _ _).append (sendByte _ _)).append clearEvents).append (sendByte _ _))

end ActsOn

/-- Every operation, host or not, acts on the pins of the handle it is given. -/
theorem actsOn_operationEvents (i : Instr) (c : Config) (h : Handle) : ActsOn h (operationEvents i c h) := by
  cases i with
  | init rs en d4 d5 d6 d7 => exact ActsOn.initEvents
  | clear => exact ActsOn.clearEvents
  | setCursor row column => exact ActsOn.sendByte _ _
  | print text => exact ActsOn.printEvents text
  | printGlyph code => exact ActsOn.sendByte _ _
  | createGlyph index bitmap => exact ActsOn.createGlyphEvents index bitmap
  | pulseEnable => exact ActsOn.pulseEnable
  | transmitNibble v => exact ActsOn.transmitNibble v
  | resetNibble => exact ActsOn.transmitNibble _
  | mode4Nibble => exact ActsOn.transmitNibble _
  | _ => exact ActsOn.sendByte _ _

end ActsOn

/-- Settles O53: what an operation emits acts on the pins of the handle it leaves behind. -/
theorem otherPinsStayAsTheyWere : Obligations.OtherPinsStayAsTheyWere := by
  unfold Obligations.OtherPinsStayAsTheyWere
  intro s t i p _ hx hp
  obtain ⟨es, hes, rfl | ⟨h, hh, hpre⟩⟩ := exec_emits hx
  · rw [hes.pins, Pins.applyAll_nil]
  · have hacts := (actsOn_operationEvents i s.config h).of_prefix hpre
    rw [hes.pins]
    exact Pins.get_applyAll_of_pin_ne (fun e he hpin => hp h hh (hacts e he p hpin)) s.pins

end Sys2Proof.Machine

/-! # The Display API (R140 to R158) -/

namespace Sys2Proof.Machine

/-! ## One Display API operation (R160)

What it sends is written out by each statement; that these are the operation's own events is then all there
is to show. -/

theorem exec_api_of_events_eq {i : Instr} {events : Config → Handle → List Event}
    (hev : apiEvents i = some events) {s : State} {h : Handle} {es : List Event}
    (hes : events s.config h = es) (hs : s.readyOn h) (hq : s.quiet es) :
    exec i s = .next (s.emitted es) := by
  subst hes
  exact exec_api_of_quiet hev hs hq

theorem apiOperation_congr {events events' : Config → Handle → List Event} {s : State}
    (hes : events s.config = events' s.config) : apiOperation events s = apiOperation events' s := by
  simp only [apiOperation, hes]

/-- Two Display API operations with the same events in the configuration at hand answer the same, whatever the
state: they are refused on the same grounds (R173, R176) and stopped at the same event (R180). -/
theorem exec_api_congr {i j : Instr} {events events' : Config → Handle → List Event}
    (hi : apiEvents i = some events) (hj : apiEvents j = some events') {s : State}
    (hes : events s.config = events' s.config) : exec i s = exec j s := by
  rw [exec_of_apiEvents hi, exec_of_apiEvents hj, apiOperation_congr hes]

/-! ## CLEAR (R140, R141) -/

/-- Settles O22: the closing address command is the DDRAM base itself, its address being 0 (R141). -/
theorem clearSendsClearWaitsAndHomes : Obligations.ClearSendsClearWaitsAndHomes := by
  unfold Obligations.ClearSendsClearWaitsAndHomes
  intro s h hs es hq
  have hes : clearEvents s.config h = es := by rw [clearEvents, ddramByte_zero]
  have hlen : es.length = 43 := hes ▸ length_clearEvents s.config h
  exact ⟨hlen, exec_api_of_events_eq rfl hes hs hq⟩

/-! ## SET_CURSOR (R144 to R146) -/

/-- Settles O23: the address written out is `ddramAddress` of the operands. -/
theorem setCursorSendsTheSaturatedAddress : Obligations.SetCursorSendsTheSaturatedAddress := by
  unfold Obligations.SetCursorSendsTheSaturatedAddress
  intro s h row column hs r c address es hq
  have hes : setCursorEvents row column s.config h = es := rfl
  exact ⟨length_setCursorEvents s.config h row column, exec_api_of_events_eq rfl hes hs hq⟩

theorem saturate_of_lt {operand : Byte} {count : Nat} (hlt : operand.toNat < count) :
    saturate operand count = operand.toNat := by
  unfold saturate
  omega

/-- From `count` on, an operand counts as `count - 1`, which is again a byte (R145). -/
theorem saturate_of_le {operand : Byte} {count : Nat} (hle : count ≤ operand.toNat) :
    saturate operand count = saturate (BitVec.ofNat 8 (count - 1)) count := by
  have hbyte : (BitVec.ofNat 8 (count - 1)).toNat = count - 1 := by
    rw [BitVec.toNat_ofNat]
    omega
  unfold saturate
  omega

/-- SET_CURSOR reads no more of its operands than their saturated values. -/
theorem exec_setCursor_congr {s : State} {row row' column column' : Byte}
    (hrow : saturate row s.config.rowCount = saturate row' s.config.rowCount)
    (hcolumn : saturate column s.config.columnCount = saturate column' s.config.columnCount) :
    exec (.setCursor row column) s = exec (.setCursor row' column') s := by
  refine exec_api_congr rfl rfl (funext fun h => ?_)
  rw [setCursorEvents, setCursorEvents, ddramAddress, ddramAddress, hrow, hcolumn]

/-- Settles O24: an operand and its replacement saturate alike. -/
theorem setCursorSaturates : Obligations.SetCursorSaturates :=
  fun _ _ _ => ⟨fun hrow => exec_setCursor_congr (saturate_of_le hrow) rfl,
    fun hcolumn => exec_setCursor_congr rfl (saturate_of_le hcolumn)⟩

theorem rowOffset_of_lt_two {r : Nat} (hr : r < 2) : rowOffset r = 0x40 * r := by
  unfold rowOffset
  split <;> omega

/-- On a cell of the display nothing saturates (R146). -/
theorem ddramAddress_of_cell {c : Config} (hrows : c.rowCount ≤ 2) {row column : Byte}
    (hr : row.toNat < c.rowCount) (hc : column.toNat < c.columnCount) :
    ddramAddress c row column = column.toNat + 0x40 * row.toNat := by
  rw [ddramAddress, saturate_of_lt hr, saturate_of_lt hc, rowOffset_of_lt_two (by omega)]

/-- An address of seven bits leaves bit 7 to the base, so that "or" adds (R86). -/
theorem ddramByte_eq_ofNat_add {c : Config} (hbase : c.byteDdramBase = 0x80) {address : Nat}
    (ha : address < 2 ^ 7) : ddramByte c address = BitVec.ofNat 8 (0x80 + address) := by
  have hor : 0x80 + address = 0x80 ||| address := Nat.two_pow_add_eq_or_of_lt ha 1
  rw [ddramByte, hbase, hor, BitVec.ofNat_or]
  rfl

/-- Settles O25: a cell's address is below 128, 2 rows of at most 64 columns (R8). -/
theorem setCursorAddressOfEachCell : Obligations.SetCursorAddressOfEachCell := by
  unfold Obligations.SetCursorAddressOfEachCell
  intro s h row column hs ⟨⟨_, hrows, _, hcolumns⟩, _⟩ hbase hr hc es hq
  have ha : column.toNat + 0x40 * row.toNat < 2 ^ 7 := by omega
  have hes : setCursorEvents row column s.config h = es := by
    rw [setCursorEvents, ddramAddress_of_cell hrows hr hc, ddramByte_eq_ofNat_add hbase ha]
  exact exec_api_of_events_eq rfl hes hs hq

/-! ## PRINT and PRINT_GLYPH (R150, R152) -/

/-- Settles O26: RS is as the last character's byte leaves it. -/
theorem printSendsEachCharacter : Obligations.PrintSendsEachCharacter := by
  unfold Obligations.PrintSendsEachCharacter
  intro s h text
  refine ⟨rfl, ?_⟩
  intro hs es hq
  have hes : printEvents text s.config h = es := List.flatMap_def
  have hlen : es.length = 21 * text.length := hes ▸ length_printEvents s.config h text
  refine ⟨hlen, exec_api_of_events_eq rfl hes hs hq, fun hd _ htext => ?_⟩
  rw [← hes]
  exact (printEvents_endsWithByte htext s.config h).level_rs hd s.pins

theorem printEvents_singleton (code : Byte) (c : Config) (h : Handle) :
    printEvents [code] c h = printGlyphEvents code c h := List.flatMap_singleton ..

/-- Settles O28: both send the one byte. -/
theorem printGlyphIsPrintOfOneCode : Obligations.PrintGlyphIsPrintOfOneCode := by
  unfold Obligations.PrintGlyphIsPrintOfOneCode
  intro s code
  refine ⟨rfl, ?_, fun h hs hq => ⟨exec_api_of_events_eq rfl rfl hs hq, fun hd _ => ?_⟩⟩
  · exact exec_api_congr rfl rfl (funext fun h => (printEvents_singleton code s.config h).symm)
  · exact level_rs_sendByte s.config hd code true s.pins

/-! ## CREATE_GLYPH (R154 to R158) -/

/-- Settles O29: the eight rows one by one, and the closing address 0. -/
theorem createGlyphSendsSlotRowsAndHome : Obligations.CreateGlyphSendsSlotRowsAndHome := by
  unfold Obligations.CreateGlyphSendsSlotRowsAndHome
  intro s h index b hs c es hq
  have hes : createGlyphEvents index b s.config h = es := by
    simp only [createGlyphEvents, cgramByte, cgramAddress, ddramByte_zero, Bitmap.rows, List.flatMap_cons,
      List.flatMap_nil, List.append_nil, List.append_assoc, c, es]
  have hlen : es.length = 210 := hes ▸ length_createGlyphEvents s.config h index b
  exact ⟨hlen, exec_api_of_events_eq rfl hes hs hq⟩

/-- `index & 7` is the index modulo 8 (R155). -/
theorem cgramAddress_congr {i j : Byte} (hij : i.toNat % 8 = j.toNat % 8) :
    cgramAddress i = cgramAddress j := by
  have hmask : ∀ x : Byte, (x &&& 0x07).toNat = x.toNat % 8 :=
    fun x => Nat.and_two_pow_sub_one_eq_mod x.toNat 3
  have hlow : i &&& 0x07 = j &&& 0x07 := BitVec.eq_of_toNat_eq (by rw [hmask, hmask, hij])
  rw [cgramAddress, cgramAddress, hlow]

/-- Settles O30: the index goes into the slot's address only. -/
theorem createGlyphMasksTheIndex : Obligations.CreateGlyphMasksTheIndex := by
  unfold Obligations.CreateGlyphMasksTheIndex
  intro s i j b hij
  refine exec_api_congr rfl rfl (funext fun h => ?_)
  rw [createGlyphEvents, createGlyphEvents, cgramByte, cgramByte, cgramAddress_congr hij]

end Sys2Proof.Machine

/-! # Exceptions: refusals, provider failures and several instances (R173 to R191) -/

namespace Sys2Proof.Machine

/-! ## Refusals (R173 to R179, R191) -/

/-- An operation of the host that is not an INIT is one of the Display API (R70). -/
theorem exec_of_host_of_ne_init {i : Instr} (hi : i.layer = .host)
    (hinit : ∀ rs en d4 d5 d6 d7, i ≠ .init rs en d4 d5 d6 d7) (s : State) :
    ∃ events, exec i s = .next (apiOperation events s) := by
  rcases exec_cases i s with ⟨rs, en, d4, d5, d6, d7, rfl, -⟩ | ⟨ev, -, -, hx⟩ | ⟨ev, -, hne, -⟩
  · exact absurd rfl (hinit rs en d4 d5 d6 d7)
  · exact ⟨ev, hx⟩
  · exact absurd hi hne

theorem exec_init_of_ground {rs en d4 d5 d6 d7 : PinId} {s : State} {g : Ground}
    (hg : initGround ⟨rs, en, d4, d5, d6, d7⟩ s = some g) :
    exec (.init rs en d4 d5 d6 d7) s = .next (refuse g s) := by
  rw [exec, execInit, initOperation_of_ground hg]

theorem apiGround_of_busy {s : State} (hb : s.busy = true) : apiGround s = some .busy := by
  simp [apiGround, hb]

theorem apiGround_of_not_ready {s : State} (hb : s.busy = false) (hseq : s.seq ≠ .ready) :
    apiGround s = some .notReady := by
  simp [apiGround, hb, hseq]

/-- Settles O32: busy is the first ground for an INIT and for the Display API (R173). -/
theorem hostOperationWhileBusyIsRefused : Obligations.HostOperationWhileBusyIsRefused := by
  unfold Obligations.HostOperationWhileBusyIsRefused
  intro s i hi hb
  rcases exec_cases i s with ⟨rs, en, d4, d5, d6, d7, rfl, -⟩ | ⟨ev, -, -, hx⟩ | ⟨ev, -, hne, -⟩
  · exact exec_init_of_ground (initGround_of_busy hb)
  · rw [hx, apiOperation_of_ground (apiGround_of_busy hb), refuse]
  · exact absurd hi hne

/-- Settles O33, by the Ready gate of R176. -/
theorem displayApiBeforeReadyIsRefused : Obligations.DisplayApiBeforeReadyIsRefused := by
  unfold Obligations.DisplayApiBeforeReadyIsRefused
  intro s i hi hinit hb hseq
  obtain ⟨ev, hx⟩ := exec_of_host_of_ne_init hi hinit s
  rw [hx, apiOperation_of_ground (apiGround_of_not_ready hb hseq), refuse]

/-- Settles O34. -/
theorem initWithEqualPinsIsRefused : Obligations.InitWithEqualPinsIsRefused :=
  fun _ _ _ _ _ _ _ hb hd => exec_init_of_ground (initGround_of_equal_pins hb hd)

/-- Settles O35: the pins are distinct, so R177's ground does not come first. -/
theorem initWithHeldPinIsRefused : Obligations.InitWithHeldPinIsRefused := by
  unfold Obligations.InitWithHeldPinIsRefused
  intro s rs en d4 d5 d6 d7 hb hd ⟨p, hp, hforeign⟩
  refine exec_init_of_ground (initGround_of_held hb hd (List.any_eq_true.2 ⟨p, hp, ?_⟩))
  simpa using hforeign

/-! ## Provider failures (R180, R183) -/

/-- A Display API operation stops before the first event on which a provider fails. -/
theorem exec_api_of_failing {i : Instr} {events : Config → Handle → List Event}
    (hev : apiEvents i = some events) {s : State} {h : Handle} {pre post : List Event} {e : Event}
    (hs : s.readyOn h) (hes : events s.config h = pre ++ e :: post) (hq : s.quiet pre)
    (he : s.failing.contains e = true) :
    exec i s = .next { s with
      trace := s.trace ++ pre, pins := s.pins.applyAll pre, busy := true, providerFault := true } := by
  rw [exec_of_apiEvents hev, apiOperation_of_failing hs hes hq he, State.emitted]

/-- Settles O36: the list named for each of the five operations is its own. -/
theorem displayApiStopsAtAProviderFailure : Obligations.DisplayApiStopsAtAProviderFailure := by
  unfold Obligations.DisplayApiStopsAtAProviderFailure
  intro s h i events pre post e hs hi hes hq he
  have hown : ∃ ev, apiEvents i = some ev ∧ ev s.config h = events := by
    rcases hi with ⟨rfl, rfl⟩ | ⟨row, column, rfl, rfl⟩ | ⟨text, rfl, rfl⟩ | ⟨code, rfl, rfl⟩ |
      ⟨index, bitmap, rfl, rfl⟩
    all_goals exact ⟨_, rfl, rfl⟩
  obtain ⟨ev, hev, rfl⟩ := hown
  exact exec_api_of_failing hev hs hes hq he

/-- Settles O37: the transitions before the failing one are taken, and no other. -/
theorem initStopsAtAProviderFailure : Obligations.InitStopsAtAProviderFailure := by
  unfold Obligations.InitStopsAtAProviderFailure
  intro s h before after pre post e q hs hphases hq he
  rw [exec, execInit, initOperation_of_failing hs hphases hq he, State.emitted]

theorem engineOperation_of_failing {s : State} {h : Handle} {events : Config → Handle → List Event}
    {pre post : List Event} {e : Event} (hs : s.engineOn h) (hes : events s.config h = pre ++ e :: post)
    (hq : s.quiet pre) (he : s.failing.contains e = true) :
    engineOperation events s = { s.emitted pre with providerFault := true, busy := true } := by
  obtain ⟨hh, hp⟩ := hs
  simp only [engineOperation, hh, hes]
  exact emitAll_of_failing hp hq he

/-- What a primitive or bus word emits where no provider fails are its own events. -/
theorem engineEvents_of_exec_quiet {i : Instr} {events : Config → Handle → List Event}
    (hev : engineEvents i = some events) {s : State} {h : Handle} {es : List Event} (hs : s.engineOn h)
    (hx : exec i { s with failing := [] } = .next (State.emitted { s with failing := [] } es)) :
    events s.config h = es := by
  have hquiet : exec i { s with failing := [] } =
      .next (State.emitted { s with failing := [] } (events s.config h)) :=
    exec_engine_of_quiet hev (s := { s with failing := [] }) hs fun _ _ => rfl
  have hemitted := Host.Outcome.next.inj (hquiet.symm.trans hx)
  simpa using congrArg State.trace hemitted

/-- Settles O38: the quiet run fixes the events, the failing one cuts them short. -/
theorem engineStopsAtAProviderFailure : Obligations.EngineStopsAtAProviderFailure := by
  unfold Obligations.EngineStopsAtAProviderFailure
  intro s h i pre post e hi hs hquiet hq he
  rcases exec_cases i s with ⟨rs, en, d4, d5, d6, d7, rfl, -⟩ | ⟨ev, -, hhost, -⟩ | ⟨ev, hev, -, hx⟩
  · exact absurd rfl hi
  · exact absurd hhost hi
  · rw [hx, engineOperation_of_failing hs (engineEvents_of_exec_quiet hev hs hquiet) hq he, State.emitted]

/-! ## The latched view among other events (R50, R190) -/

section View

variable {P : Type} [DecidableEq P] [LT P] [DecidableLT P] {h : Handle P}

/-- The latched view reads the handle's pins and no others. -/
theorem latchedView_congr {a b : Pins P} (hab : ∀ p ∈ h.pins, a.get p = b.get p) (es : List (Event P)) :
    latchedView h a es = latchedView h b es := by
  induction es generalizing a b with
  | nil => rfl
  | cons e es ih =>
    have hen : a.get h.en = b.get h.en := hab _ (by simp [Handle.pins])
    have htransfer : transferAt h a = transferAt h b :=
      transferAt_congr fun p hp => congrArg (·.level.bit) (hab p (by simp [Handle.pins] at hp ⊢; tauto))
    have hnext : ∀ p ∈ h.pins, (a.apply e).get p = (b.apply e).get p := fun p hp => by
      rw [Pins.get_apply, Pins.get_apply, hab p hp]
    rw [latchedView, latchedView, hen, htransfer, ih hnext]

/-- An event on none of the handle's pins is as good as none to the latched view. -/
theorem latchedView_cons_of_pin_ne {e : Event P} (he : ∀ p ∈ h.pins, e.pin ≠ some p) (ps : Pins P)
    (es : List (Event P)) : latchedView h ps (e :: es) = latchedView h ps es := by
  have hen : e ≠ .lo h.en := fun heq => he h.en (by simp [Handle.pins]) (by rw [heq, Event.pin_lo])
  rw [latchedView, if_neg fun hl => hen hl.1]
  exact latchedView_congr (fun p hp => Pins.get_apply_of_pin_ne (he p hp) ps) es

/-- Among events that carry something more, those left out by `keep` may be left out of the latched view if they
act on none of the handle's pins. -/
theorem latchedView_map_filter {A : Type} (f : A → Event P) (keep : A → Bool) {xs : List A}
    (hxs : ∀ x ∈ xs, keep x = false → ∀ p ∈ h.pins, (f x).pin ≠ some p) (ps : Pins P) :
    latchedView h ps (xs.map f) = latchedView h ps ((xs.filter keep).map f) := by
  induction xs generalizing ps with
  | nil => rfl
  | cons x xs ih =>
    obtain ⟨hx, hxs⟩ := List.forall_mem_cons.1 hxs
    cases hkeep : keep x with
    | true => rw [List.filter_cons_of_pos hkeep, List.map_cons, List.map_cons, latchedView, latchedView, ih hxs]
    | false =>
      rw [List.filter_cons_of_neg (by simp [hkeep]), List.map_cons, latchedView_cons_of_pin_ne (hx hkeep), ih hxs]

theorem latchedView_filter (keep : Event P → Bool) {es : List (Event P)}
    (hes : ∀ e ∈ es, keep e = false → ∀ p ∈ h.pins, e.pin ≠ some p) (ps : Pins P) :
    latchedView h ps es = latchedView h ps (es.filter keep) := by
  simpa using latchedView_map_filter id keep hes ps

end View

/-- Settles O45: in both clauses what is left out acts on none of the handle's pins. -/
theorem latchedViewIgnoresOtherPins : Obligations.LatchedViewIgnoresOtherPins := by
  unfold Obligations.LatchedViewIgnoresOtherPins
  intro h ps _
  refine ⟨fun es => latchedView_filter _ (fun e _ hkeep p hp hpin => ?_) ps, fun common k hothers => ?_⟩
  · simp [hpin, hp] at hkeep
  · exact latchedView_map_filter Prod.snd _ (fun x hx hkeep => hothers x hx (by simpa using hkeep)) ps

/-! ## The delays and the `CFG` of every operation (R110, R123, R186, R204) -/

section Delays

variable (c : Config) (h : Handle)

theorem delayAllowed_drive (p : PinId) (b : Bool) : delayAllowed c (drive p b) = true := by
  cases b <;> rfl

theorem delayAllowed_of_mem_pulseEnable : ∀ e ∈ pulseEnable c h, delayAllowed c e = true := by
  simp [pulseEnable, delayAllowed]

theorem delayAllowed_of_mem_transmitNibble (v : Nibble) :
    ∀ e ∈ transmitNibble c h v, delayAllowed c e = true := by
  refine List.forall_mem_append.2 ⟨?_, delayAllowed_of_mem_pulseEnable c h⟩
  simp [delayAllowed_drive]

theorem delayAllowed_of_mem_sendByte (value : Byte) (isData : Bool) :
    ∀ e ∈ sendByte c h value isData, delayAllowed c e = true := by
  simp only [sendByte, List.forall_mem_cons, List.forall_mem_append]
  exact ⟨delayAllowed_drive c _ _, delayAllowed_of_mem_transmitNibble c h _,
    delayAllowed_of_mem_transmitNibble c h _⟩

theorem delayAllowed_of_mem_clearEvents : ∀ e ∈ clearEvents c h, delayAllowed c e = true := by
  simp only [clearEvents, List.forall_mem_append]
  exact ⟨⟨delayAllowed_of_mem_sendByte c h _ _, by simp [delayAllowed]⟩, delayAllowed_of_mem_sendByte c h _ _⟩

theorem delayAllowed_of_mem_printEvents (text : List Byte) :
    ∀ e ∈ printEvents text c h, delayAllowed c e = true := by
  intro e he
  obtain ⟨code, -, he⟩ := List.mem_flatMap.1 he
  exact delayAllowed_of_mem_sendByte c h code true e he

theorem delayAllowed_of_mem_createGlyphEvents (index : Byte) (bitmap : Bitmap) :
    ∀ e ∈ createGlyphEvents index bitmap c h, delayAllowed c e = true := by
  simp only [createGlyphEvents, List.forall_mem_append]
  exact ⟨⟨delayAllowed_of_mem_sendByte c h _ _, delayAllowed_of_mem_printEvents c h bitmap.rows⟩,
    delayAllowed_of_mem_sendByte c h _ _⟩

theorem delayAllowed_of_mem_initEvents : ∀ e ∈ initEvents c h, delayAllowed c e = true := by
  have hnibble := delayAllowed_of_mem_transmitNibble c h
  have hbyte := delayAllowed_of_mem_sendByte c h
  have hwait : ∀ n ∈ [c.tPowerupMs, c.tReset1Ms, c.tReset2Ms, c.tReset3Ms], delayAllowed c (.dms n) = true := by
    simp [delayAllowed]
  simp only [List.forall_mem_cons] at hwait
  obtain ⟨hpowerup, hwait1, hwait2, hwait3, -⟩ := hwait
  have hstep1 : ∀ e ∈ initStep1 h, delayAllowed c e = true := by simp [initStep1, delayAllowed]
  have hstep3 : ∀ e ∈ initStep3 c h, delayAllowed c e = true := by
    simp only [initStep3, List.forall_mem_append, List.forall_mem_singleton]
    exact ⟨⟨⟨⟨⟨hnibble _, hwait1⟩, hnibble _⟩, hwait2⟩, hnibble _⟩, hwait3⟩
  simp only [initEvents_eq, initHandshake, initCommands, List.forall_mem_append, List.forall_mem_singleton]
  exact ⟨⟨⟨⟨hstep1, hpowerup⟩, hstep3⟩, hnibble _⟩,
    ⟨⟨hbyte _ _, hbyte _ _⟩, delayAllowed_of_mem_clearEvents c h⟩, hbyte _ _⟩

theorem delayAllowed_of_mem_operationEvents (i : Instr) :
    ∀ e ∈ operationEvents i c h, delayAllowed c e = true := by
  cases i with
  | init rs en d4 d5 d6 d7 => exact delayAllowed_of_mem_initEvents c h
  | clear => exact delayAllowed_of_mem_clearEvents c h
  | print text => exact delayAllowed_of_mem_printEvents c h text
  | createGlyph index bitmap => exact delayAllowed_of_mem_createGlyphEvents c h index bitmap
  | pulseEnable => exact delayAllowed_of_mem_pulseEnable c h
  | transmitNibble v => exact delayAllowed_of_mem_transmitNibble c h v
  | resetNibble => exact delayAllowed_of_mem_transmitNibble c h _
  | mode4Nibble => exact delayAllowed_of_mem_transmitNibble c h _
  | _ => exact delayAllowed_of_mem_sendByte c h _ _

theorem isCfg_of_mem_operationEvents {i : Instr} (hi : ∀ rs en d4 d5 d6 d7, i ≠ .init rs en d4 d5 d6 d7) :
    ∀ e ∈ operationEvents i c h, e.isCfg = false := by
  cases i with
  | init rs en d4 d5 d6 d7 => exact absurd rfl (hi rs en d4 d5 d6 d7)
  | clear => exact isCfg_of_mem_clearEvents c h
  | print text => exact isCfg_of_mem_data c h text
  | createGlyph index bitmap => exact isCfg_of_mem_apiEvents (i := .createGlyph index bitmap) rfl c h
  | pulseEnable => simp [operationEvents, apiEvents, engineEvents, pulseEnable]
  | transmitNibble v => exact isCfg_of_mem_transmitNibble c h v
  | resetNibble => exact isCfg_of_mem_transmitNibble c h _
  | mode4Nibble => exact isCfg_of_mem_transmitNibble c h _
  | _ => exact isCfg_of_mem_sendByte c h _ _

end Delays

/-- Settles O52: what an operation adds is a beginning of its own events, none of which asks for another delay. -/
theorem delaysAreTheParametersAndCfgIsInits : Obligations.DelaysAreTheParametersAndCfgIsInits := by
  unfold Obligations.DelaysAreTheParametersAndCfgIsInits
  intro s t i hx
  obtain ⟨es, hes, rfl | ⟨h, -, hpre⟩⟩ := exec_emits hx
  · exact ⟨[], hes.trace, by simp, by simp⟩
  · exact ⟨es, hes.trace,
      fun e he => delayAllowed_of_mem_operationEvents s.config h i e (hpre.subset he),
      fun hi e he => isCfg_of_mem_operationEvents s.config h hi e (hpre.subset he)⟩

/-! ## Several instances (R190, R191) -/

/-! ### The pins others hold -/

theorem Running.heldPins_congr {r r' : Running} (h : r'.state.handle = r.state.handle) :
    r'.heldPins = r.heldPins := by
  simp only [Running.heldPins, h]

theorem Running.heldPins_of_handle {r : Running} {h : Handle} (hh : r.state.handle = some h) :
    r.heldPins = h.pins := by
  simp only [Running.heldPins, hh]

theorem Fleet.mem_foreignPins {f : Fleet} {k : Nat} {p : PinId} :
    p ∈ f.foreignPins k ↔ ∃ j r, j ≠ k ∧ f.members[j]? = some r ∧ p ∈ r.heldPins := by
  simp only [Fleet.foreignPins, List.mem_flatMap, List.mem_eraseIdx_iff_getElem?]
  exact ⟨fun ⟨r, ⟨j, hj, hr⟩, hp⟩ => ⟨j, r, hj, hr, hp⟩,
    fun ⟨j, r, hj, hr, hp⟩ => ⟨r, ⟨j, hj, hr⟩, hp⟩⟩

/-- No pin is shared exactly if no member of the fleet holds one of those it sees the others hold. -/
theorem Fleet.pinsApart_iff {f : Fleet} :
    f.pinsApart ↔ ∀ k r, f.members[k]? = some r → ∀ p ∈ r.heldPins, p ∉ f.foreignPins k := by
  rw [Fleet.pinsApart, List.pairwise_iff_getElem]
  constructor
  · intro h k r hr p hp hforeign
    obtain ⟨j, q, hjk, hq, hpq⟩ := Fleet.mem_foreignPins.1 hforeign
    obtain ⟨hk, rfl⟩ := List.getElem?_eq_some_iff.1 hr
    obtain ⟨hj, rfl⟩ := List.getElem?_eq_some_iff.1 hq
    rcases Nat.lt_or_gt_of_ne hjk with hlt | hlt
    · exact h j k hj hk hlt p hpq hp
    · exact h k j hk hj hlt p hp hpq
  · intro h i j hi hj hij p hp hpj
    exact h i _ (List.getElem?_eq_getElem hi) p hp
      (Fleet.mem_foreignPins.2 ⟨j, _, hij.ne', List.getElem?_eq_getElem hj, hpj⟩)

@[simp] theorem Fleet.foreignPins_move (f : Fleet) (k : Nat) (r : Running) (es : List Event) :
    (f.move k r es).foreignPins k = f.foreignPins k := by
  simp only [Fleet.foreignPins, Fleet.move_members, List.eraseIdx_set_eq]

theorem Fleet.getElem?_move_of_ne {f : Fleet} {j k : Nat} (hjk : j ≠ k) (r : Running) (es : List Event) :
    (f.move k r es).members[j]? = f.members[j]? :=
  List.getElem?_set_ne hjk.symm

theorem Fleet.eq_of_getElem?_move_self {f : Fleet} {k : Nat} {q r : Running} {es : List Event}
    (hq : (f.move k r es).members[k]? = some q) : q = r := by
  obtain ⟨-, rfl⟩ : _ ∧ r = q := by simpa [List.getElem?_set_self'] using hq
  rfl

/-- The pins stay apart if the member that moves comes to hold none that another holds. -/
theorem Fleet.pinsApart.move {f : Fleet} (hf : f.pinsApart) {k : Nat} {r : Running}
    (hr : ∀ p ∈ r.heldPins, p ∉ f.foreignPins k) (es : List Event) : (f.move k r es).pinsApart := by
  refine Fleet.pinsApart_iff.2 fun j q hq p hp => ?_
  by_cases hjk : j = k
  · subst hjk
    obtain rfl := Fleet.eq_of_getElem?_move_self hq
    simpa using hr p hp
  · rw [Fleet.getElem?_move_of_ne hjk] at hq
    intro hforeign
    obtain ⟨i, q', hij, hq', hpq'⟩ := Fleet.mem_foreignPins.1 hforeign
    by_cases hik : i = k
    · subst hik
      obtain rfl := Fleet.eq_of_getElem?_move_self hq'
      exact hr p hpq' (Fleet.mem_foreignPins.2 ⟨j, q, hjk, hq, hp⟩)
    · rw [Fleet.getElem?_move_of_ne hik] at hq'
      exact Fleet.pinsApart_iff.1 hf j q hq p hp (Fleet.mem_foreignPins.2 ⟨i, q', hij, hq', hpq'⟩)

/-! ### What is taken on at an issue -/

/-- The events a plan stands for, on the handle it is carried out on. -/
def Plan.events : Plan → Config → Handle → List Event
  | .handshake _ => initEvents
  | .api events => events
  | .engine events => events

theorem plan_events (i : Instr) : (plan id i).events = operationEvents i := by
  cases i <;> rfl

@[simp] theorem Micro.emit_mem_ofEvents {e : Event} {es : List Event} :
    .emit e ∈ Micro.ofEvents es ↔ e ∈ es := by
  simp [Micro.ofEvents]

@[simp] theorem Micro.emit_mem_ofPhases {e : Event} {phases : List (List Event × Seq)} :
    .emit e ∈ Micro.ofPhases phases ↔ e ∈ phases.flatMap Prod.fst := by
  simp [Micro.ofPhases]

/-- An INIT with no ground against it names no pin that another handle holds (R191). -/
theorem not_mem_foreignPins_of_initGround {h : Handle} {s : State} (hg : initGround h s = none) :
    ∀ p ∈ h.pins, p ∉ s.foreignPins := by
  intro p hp hforeign
  have hany : (h.pins.any fun p => s.foreignPins.contains p) = true :=
    List.any_eq_true.2 ⟨p, hp, by simpa using hforeign⟩
  unfold initGround at hg
  split_ifs at hg

/-- The issue of an operation refuses it, or takes it on: its events on the handle there is, or on a new one that
holds no pin of others. Nothing is emitted yet (R27). -/
theorem issue_cases (i : Instr) (s : State) :
    (∃ g, issue id i s = ⟨refuse g s, []⟩) ∨
      ∃ h, (issue id i s).state.handle = some h ∧ (issue id i s).state.trace = s.trace ∧
        (s.handle = some h ∨ ∀ p ∈ h.pins, p ∉ s.foreignPins) ∧
        ∀ e, .emit e ∈ (issue id i s).todo → e ∈ operationEvents i s.config h := by
  rw [← plan_events, issue]
  cases plan id i with
  | handshake h =>
    dsimp only
    cases hg : initGround h s with
    | some g => exact .inl ⟨g, rfl⟩
    | none =>
      exact .inr ⟨h, rfl, rfl, .inr (not_mem_foreignPins_of_initGround hg),
        fun e he => by simpa [Plan.events, initEvents] using he⟩
  | api events =>
    cases apiGround s with
    | some g => exact .inl ⟨g, rfl⟩
    | none =>
      cases hh : s.handle with
      | none => exact .inl ⟨_, rfl⟩
      | some h => exact .inr ⟨h, hh, rfl, .inl rfl, fun e he => by simpa [Plan.events] using he⟩
  | engine events =>
    cases hh : s.handle with
    | none => exact .inl ⟨_, rfl⟩
    | some h => exact .inr ⟨h, hh, rfl, .inl rfl, fun e he => by simpa [Plan.events] using he⟩

/-! ### What one move can do -/

/-- What the invariant of a fleet needs to know of a move of one member, from `r` to `r'`, which emits `es` and
sees others hold the pins `foreign`. -/
structure Running.MovesTo (foreign : List PinId) (r r' : Running) (es : List Event) : Prop where
  trace : r'.state.trace = r.state.trace ++ es
  length : es.length ≤ 1
  emitted : ∀ e ∈ es, .emit e ∈ r.todo
  heldPins : r'.heldPins = r.heldPins ∨ ∀ p ∈ r'.heldPins, p ∉ foreign
  keepsToItsPins : r.keepsToItsPins → r'.keepsToItsPins

theorem Running.keepsToItsPins_of_todo_nil {r : Running} (h : r.todo = []) : r.keepsToItsPins := by
  simp [Running.keepsToItsPins, h]

theorem Running.tick_todo_subset (r : Running) : r.tick.todo ⊆ r.todo := by
  unfold Running.tick
  split
  · exact List.Subset.refl _
  · next ht =>
    rw [ht]
    dsimp only
    split
    · exact List.nil_subset _
    · exact List.subset_cons_self _ _
  · next ht => exact ht ▸ List.subset_cons_self _ _
  · next ht => exact ht ▸ List.subset_cons_self _ _

theorem Running.movesTo_tick (foreign : List PinId) (r : Running) :
    r.MovesTo foreign r.tick (r.tick.state.emittedSince r.state.trace) := by
  have hheld : r.tick.heldPins = r.heldPins := Running.heldPins_congr r.tick_handle
  have hkeeps : r.keepsToItsPins → r.tick.keepsToItsPins := fun h e he p hp =>
    hheld ▸ h e (r.tick_todo_subset he) p hp
  rcases r.tick_trace with ht | ⟨e, he, ht⟩
  · have hes : r.tick.state.emittedSince r.state.trace = [] := by simp [State.emittedSince, ht]
    rw [hes]
    exact ⟨by simpa using ht, by simp, by simp, .inl hheld, hkeeps⟩
  · have hes : r.tick.state.emittedSince r.state.trace = [e] := by simp [State.emittedSince, ht]
    rw [hes]
    exact ⟨ht, by simp, by simpa using he, .inl hheld, hkeeps⟩

/-- A refusal is a move that emits nothing and holds what was held (R175), whatever the host has issued. -/
theorem Running.movesTo_refuse (r : Running) (g : Ground) (foreign : List PinId) (stream : List Byte) :
    r.MovesTo foreign
      ⟨refuse g { r.state with foreignPins := foreign, stream := stream }, []⟩ [] :=
  ⟨by simp, by simp, by simp, .inl rfl, fun _ => Running.keepsToItsPins_of_todo_nil rfl⟩

/-- The issue of an operation is a move that emits nothing: what it takes on acts on the pins it then holds. -/
theorem Running.movesTo_issue (r : Running) (i : Instr) (foreign : List PinId) (stream : List Byte) :
    r.MovesTo foreign
      (issue id i { r.state with foreignPins := foreign, stream := stream }) [] := by
  rcases issue_cases i { r.state with foreignPins := foreign, stream := stream } with
    ⟨g, hx⟩ | ⟨h, hh, ht, hpins, htodo⟩
  · rw [hx]
    exact r.movesTo_refuse g foreign stream
  · have hheld := Running.heldPins_of_handle hh
    refine ⟨by simpa using ht, by simp, by simp, ?_, fun _ e he p hp => ?_⟩
    · rcases hpins with hsame | hnew
      · exact .inl (Running.heldPins_congr (hh.trans hsame.symm))
      · exact .inr (hheld ▸ hnew)
    · exact hheld ▸ actsOn_operationEvents i _ h e (htodo e he) p hp

/-- A step of a fleet is nothing, or such a move of the member whose turn it is. -/
theorem Fleet.step_moves {f g : Fleet} {k : Nat} (h : f.step k = .next g) :
    g = f ∨ ∃ r r' es, f.members[k]? = some r ∧ r.MovesTo (f.foreignPins k) r' es ∧ g = f.move k r' es := by
  rcases Fleet.step_cases h with rfl | ⟨r, hr, ⟨-, rfl⟩ | ⟨-, rfl⟩ | ⟨-, -, i, rest, -, rfl⟩⟩
  · exact .inl rfl
  · exact .inr ⟨r, _, _, hr, r.movesTo_tick _, rfl⟩
  · exact .inr ⟨r, _, _, hr, r.movesTo_refuse _ _ _, rfl⟩
  · exact .inr ⟨r, _, _, hr, r.movesTo_issue i _ rest, rfl⟩

/-! ### The rules of a fleet -/

/-- Settles O58: a move writes one place of the list. -/
theorem fleetStepLeavesTheOtherInstances : Obligations.FleetStepLeavesTheOtherInstances := by
  unfold Obligations.FleetStepLeavesTheOtherInstances
  intro f g k j h hjk
  obtain rfl | ⟨r, r', es, -, -, rfl⟩ := Fleet.step_moves h
  · rfl
  · exact Fleet.getElem?_move_of_ne hjk r' es

/-- A member that moves comes to hold no pin that another holds. -/
theorem Running.MovesTo.not_mem_foreignPins {f : Fleet} {k : Nat} {r r' : Running} {es : List Event}
    (hm : r.MovesTo (f.foreignPins k) r' es) (hf : f.pinsApart) (hr : f.members[k]? = some r) :
    ∀ p ∈ r'.heldPins, p ∉ f.foreignPins k := by
  rcases hm.heldPins with hsame | hnew
  · exact hsame ▸ Fleet.pinsApart_iff.1 hf k r hr
  · exact hnew

/-- Settles O59: a member holds what it held, or the pins of an INIT that R191's ground let through. -/
theorem fleetStepKeepsPinsApart : Obligations.FleetStepKeepsPinsApart := by
  unfold Obligations.FleetStepKeepsPinsApart
  intro f g k hf h
  obtain rfl | ⟨r, r', es, hr, hm, rfl⟩ := Fleet.step_moves h
  · exact hf
  · exact hf.move (hm.not_mem_foreignPins hf hr) es

theorem Fleet.traceOf_move_self (f : Fleet) (k : Nat) (r : Running) (es : List Event) :
    (f.move k r es).traceOf k = f.traceOf k ++ es := by
  simp [Fleet.traceOf, List.filter_map, Function.comp_def]

theorem Fleet.traceOf_move_of_ne {f : Fleet} {j k : Nat} (hjk : j ≠ k) (r : Running) (es : List Event) :
    (f.move k r es).traceOf j = f.traceOf j := by
  simp [Fleet.traceOf, List.filter_map, Function.comp_def, hjk.symm]

theorem Fleet.Inv.move {f : Fleet} (hf : f.Inv) {k : Nat} {r r' : Running} {es : List Event}
    (hr : f.members[k]? = some r) (hm : r.MovesTo (f.foreignPins k) r' es) : (f.move k r' es).Inv := by
  obtain ⟨hapart, hkeeps, htrace⟩ := hf
  refine ⟨hapart.move (hm.not_mem_foreignPins hapart hr) es, fun q hq => ?_, fun j q hq => ?_⟩
  · rcases List.mem_or_eq_of_mem_set hq with hq | rfl
    · exact hkeeps q hq
    · exact hm.keepsToItsPins (hkeeps r (List.mem_of_getElem? hr))
  · by_cases hjk : j = k
    · subst hjk
      obtain rfl := Fleet.eq_of_getElem?_move_self hq
      rw [Fleet.traceOf_move_self, htrace j r hr, hm.trace]
    · rw [Fleet.getElem?_move_of_ne hjk] at hq
      rw [Fleet.traceOf_move_of_ne hjk, htrace j q hq]

/-- Settles O60: the one event is the next of those the member had still to emit, so it acts on the member's own
pins. -/
theorem fleetStepKeepsTheInvariant : Obligations.FleetStepKeepsTheInvariant := by
  unfold Obligations.FleetStepKeepsTheInvariant
  intro f g k hf h
  obtain rfl | ⟨r, r', es, hr, hm, rfl⟩ := Fleet.step_moves h
  · exact ⟨hf, [], by simp, by simp, by simp⟩
  refine ⟨hf.move hr hm, es, hm.length, rfl, fun e he j q hjk hq p hp hpin => ?_⟩
  obtain ⟨hapart, hkeeps, -⟩ := hf
  have hown : p ∈ r.heldPins := hkeeps r (List.mem_of_getElem? hr) e (hm.emitted e he) p hpin
  exact Fleet.pinsApart_iff.1 hapart k r hr p hown (Fleet.mem_foreignPins.2 ⟨j, q, hjk, hq, hp⟩)

end Sys2Proof.Machine

/-! # Reset, hazards and least durations (R200, R210, R215) -/

namespace Sys2Proof.Machine

/-! ## Waiting (R178, R200) -/

/-- Settles O6: an empty stream decodes to no operation, so either ground lets the port wait. -/
theorem stepWaitsWhenIdleOrBusy : Obligations.StepWaitsWhenIdleOrBusy := by
  unfold Obligations.StepWaitsWhenIdleOrBusy
  intro s hl hw
  rcases hw with hempty | hbusy
  · have hdec : decode s.stream = .empty := by rw [hempty, decode]
    exact step_of_wait hl (.inr hdec)
  · exact step_of_wait hl (.inl hbusy)

/-! ## The last address command told (R158, R210) -/

/-- The last address command is DDRAM address 0, with no data since. -/
def Told.isHome (t : Told) : Prop := t.address = some (.ddram, 0) ∧ t.data = []

theorem told_concat (ms : List Message) (m : Message) : told (ms ++ [m]) = (told ms).hearMessage m :=
  List.foldl_concat ..

theorem Told.isHome_hear_home (t : Told) : (t.hear ⟨false, 0x80⟩).isHome := ⟨rfl, rfl⟩

/-- The entry-mode word is no address command and no data, so it leaves the display home. -/
theorem Told.isHome.hear_entryMode {t : Told} (ht : t.isHome) : (t.hear ⟨false, 0x06⟩).isHome := ht

theorem isHome_told_home (ms : List Message) : (told (ms ++ [.word ⟨false, 0x80⟩])).isHome := by
  rw [told_concat]
  exact Told.isHome_hear_home _

theorem isHome_told_home_entryMode (ms : List Message) :
    (told (ms ++ [.word ⟨false, 0x80⟩] ++ [.word ⟨false, 0x06⟩])).isHome := by
  rw [told_concat]
  exact (isHome_told_home ms).hear_entryMode

/-- INIT's closing words are the home word of its clear step (R129) and the entry mode (R130). -/
theorem initMessages_ends_home_entryMode {c : Config} (hstd : standardBytes c) :
    ∃ before, initMessages c = before ++ [.word ⟨false, 0x80⟩] ++ [.word ⟨false, 0x06⟩] := by
  rw [initMessages, initWords_of_standardBytes hstd]
  exact ⟨[_, _, _, _, _, _, _], rfl⟩

/-- Settles O43: the home word comes last in CLEAR and CREATE_GLYPH, and before the entry-mode word alone in
INIT. -/
theorem lastAddressToldIsHome : Obligations.LastAddressToldIsHome := by
  unfold Obligations.LastAddressToldIsHome
  intro c h ps earlier ms hstd hd hwf hen hms
  obtain ⟨-, -, -, hbase, -⟩ := id hstd
  obtain ⟨hclear, -, -, -, hglyph⟩ := displayApiSendsTheseBusWords c h ps hd hwf hen
  rw [hbase] at hclear hglyph
  rcases hms with hms | hms | ⟨index, b, hms⟩
  · obtain ⟨before, hinit⟩ := initMessages_ends_home_entryMode hstd
    rw [cutInit_initEvents c hd hen, hinit] at hms
    cases hms
    rw [← List.append_assoc, ← List.append_assoc]
    exact isHome_told_home_entryMode _
  · cases hclear.symm.trans hms
    rw [List.append_cons]
    exact isHome_told_home _
  · cases (hglyph index b).symm.trans hms
    rw [← List.append_assoc]
    exact isHome_told_home _

/-! ## Least durations (R215) -/

section Durations

variable (c : Config) (h : Handle)

@[simp] theorem leastMicros_nil : leastMicros [] = 0 := rfl

@[simp] theorem leastMicros_cons (e : Event) (es : List Event) :
    leastMicros (e :: es) = e.leastMicros + leastMicros es := by
  simp [leastMicros]

@[simp] theorem leastMicros_append (a b : List Event) :
    leastMicros (a ++ b) = leastMicros a + leastMicros b := by
  simp [leastMicros]

@[simp] theorem Event.leastMicros_drive (p : PinId) (b : Bool) : (drive p b).leastMicros = 0 := by cases b <;> rfl

@[simp] theorem leastMicros_pulseEnable : leastMicros (pulseEnable c h) = Config.pulseMicros c := by
  simp [pulseEnable, Event.leastMicros, Config.pulseMicros, Nat.add_assoc]

@[simp] theorem leastMicros_transmitNibble (v : Nibble) :
    leastMicros (transmitNibble c h v) = Config.pulseMicros c := by
  simp [transmitNibble]

@[simp] theorem leastMicros_sendByte (value : Byte) (isData : Bool) :
    leastMicros (sendByte c h value isData) = 2 * Config.pulseMicros c := by
  simp [sendByte, Nat.two_mul]

@[simp] theorem leastMicros_sendCommand (value : Byte) :
    leastMicros (sendCommand c h value) = 2 * Config.pulseMicros c := leastMicros_sendByte c h value false

@[simp] theorem leastMicros_sendData (value : Byte) :
    leastMicros (sendData c h value) = 2 * Config.pulseMicros c := leastMicros_sendByte c h value true

theorem leastMicros_clearEvents :
    leastMicros (clearEvents c h) = 1000 * c.tClearMs + 4 * Config.pulseMicros c := by
  simp only [clearEvents, leastMicros_append, leastMicros_sendCommand, leastMicros_cons, leastMicros_nil,
    Event.leastMicros]
  omega

theorem leastMicros_setCursorEvents (row column : Byte) :
    leastMicros (setCursorEvents row column c h) = 2 * Config.pulseMicros c := leastMicros_sendCommand c h _

theorem leastMicros_printEvents (text : List Byte) :
    leastMicros (printEvents text c h) = 2 * text.length * Config.pulseMicros c := by
  induction text with
  | nil => simp [printEvents]
  | cons code text ih =>
    rw [printEvents] at ih
    rw [printEvents, List.flatMap_cons, leastMicros_append, leastMicros_sendData, ih, List.length_cons]
    ring

theorem leastMicros_printGlyphEvents (code : Byte) :
    leastMicros (printGlyphEvents code c h) = 2 * Config.pulseMicros c := leastMicros_sendData c h code

/-- Two address commands, and the eight rows as a text of eight characters. -/
theorem leastMicros_createGlyphEvents (index : Byte) (b : Bitmap) :
    leastMicros (createGlyphEvents index b c h) = 20 * Config.pulseMicros c := by
  have hrows : leastMicros (b.rows.flatMap (sendData c h)) = 16 * Config.pulseMicros c :=
    leastMicros_printEvents c h b.rows
  rw [createGlyphEvents, leastMicros_append, leastMicros_append, leastMicros_sendCommand,
    leastMicros_sendCommand, hrows]
  omega

theorem leastMicros_initStep1 : leastMicros (initStep1 h) = 0 := rfl

theorem leastMicros_initStep3 : leastMicros (initStep3 c h) =
    1000 * (c.tReset1Ms + c.tReset2Ms + c.tReset3Ms) + 3 * Config.pulseMicros c := by
  simp only [initStep3, leastMicros_append, leastMicros_transmitNibble, leastMicros_cons, leastMicros_nil,
    Event.leastMicros]
  omega

/-- Four nibbles and the five commands make fourteen pulses (R132). -/
theorem leastMicros_initEvents : leastMicros (initEvents c h) =
    1000 * (c.tPowerupMs + c.tReset1Ms + c.tReset2Ms + c.tReset3Ms + c.tClearMs) +
      14 * Config.pulseMicros c := by
  simp only [initEvents_eq, initHandshake, initCommands, leastMicros_append, leastMicros_initStep1,
    leastMicros_initStep3, leastMicros_transmitNibble, leastMicros_sendCommand, leastMicros_clearEvents,
    leastMicros_cons, leastMicros_nil, Event.leastMicros]
  omega

end Durations

/-- Settles O55: `P` is `Config.pulseMicros`. -/
theorem leastDurations : Obligations.LeastDurations :=
  fun c h => ⟨leastMicros_pulseEnable c h, leastMicros_transmitNibble c h, leastMicros_sendByte c h,
    leastMicros_initEvents c h, leastMicros_clearEvents c h, leastMicros_setCursorEvents c h,
    leastMicros_printEvents c h, leastMicros_printGlyphEvents c h, leastMicros_createGlyphEvents c h⟩

end Sys2Proof.Machine
